-- ==== Sys2Proof/Word.lean ====
section
/-! DEFINITION. The word of the machine, the byte of the image file, register numbers, and the three kinds of operand word. -/

namespace Sys2Proof

/-- 00_scope.md R3: a 16-bit unsigned value, the machine's one storage and operand unit. -/
abbrev Word := BitVec 16

/-- A byte of the image file (20_memory.md R35, R36) or a character code of the input port (00_scope.md R11). -/
abbrev Byte := BitVec 8

/-- The number `i` of a general register `x[i]` (10_state.md R16). -/
abbrev RegIdx := Fin 8

/-- An operand word by its kind (30_encoding.md R49), classified once at fetch as the design note quoted in R58 asks.
A word of the third kind is kept, because the fault it raises reports it (60_exceptions.md R102). -/
inductive Operand where
  /-- `0 <= v <= 32767`: the value itself. -/
  | lit (v : BitVec 15)
  /-- `32768 + i`: the register `x[i]`. -/
  | reg (i : RegIdx)
  /-- `32776 <= w`: no meaning. -/
  | invalid (w : Word)
  deriving DecidableEq, Repr

end Sys2Proof
end

