-- ==== Sys2Proof/Syntax.lean ====
section
/-! DEFINITION. The 22 instructions of 30_encoding.md R62, one constructor per row of spec/opcode_table.json. -/

namespace Sys2Proof

/-- An instruction with its operands `a`, `b`, `c` in the order of its operand words (30_encoding.md R45, R46).
The operands are as fetched: whether each fits its role is the machine's own check (R58), see `Instr.wellFormed`. -/
inductive Instr where
  /-- opcode 0, 40_system.md R71 -/
  | halt
  /-- opcode 1, 41_move_stack.md R73 -/
  | set (a b : Operand)
  /-- opcode 2, 41_move_stack.md R74 -/
  | push (a : Operand)
  /-- opcode 3, 41_move_stack.md R75 -/
  | pop (a : Operand)
  /-- opcode 4, 42_compare.md R76 -/
  | eq (a b c : Operand)
  /-- opcode 5, 42_compare.md R77 -/
  | gt (a b c : Operand)
  /-- opcode 6, 43_jumps.md R79 -/
  | jmp (a : Operand)
  /-- opcode 7, 43_jumps.md R80 -/
  | jt (a b : Operand)
  /-- opcode 8, 43_jumps.md R81 -/
  | jf (a b : Operand)
  /-- opcode 9, 44_alu.md R83 -/
  | add (a b c : Operand)
  /-- opcode 10, 44_alu.md R84 -/
  | mult (a b c : Operand)
  /-- opcode 11, 44_alu.md R85 -/
  | mod (a b c : Operand)
  /-- opcode 12, 44_alu.md R86 -/
  | and (a b c : Operand)
  /-- opcode 13, 44_alu.md R87 -/
  | or (a b c : Operand)
  /-- opcode 14, 44_alu.md R88 -/
  | not (a b : Operand)
  /-- opcode 15, 45_memory.md R90 -/
  | rmem (a b : Operand)
  /-- opcode 16, 45_memory.md R91 -/
  | wmem (a b : Operand)
  /-- opcode 17, 46_call_ret.md R93 -/
  | call (a : Operand)
  /-- opcode 18, 46_call_ret.md R94 -/
  | ret
  /-- opcode 19, 47_io.md R96 -/
  | out (a : Operand)
  /-- opcode 20, 47_io.md R97, mnemonic `IN` -/
  | inp (a : Operand)
  /-- opcode 21, 40_system.md R72 -/
  | noop
  deriving DecidableEq, Repr

end Sys2Proof
end

