-- ==== Sys2Proof/WellFormed.lean ====
section
/-! DEFINITION. When the operands of an instruction fit their roles (30_encoding.md R53, R58). -/

namespace Sys2Proof

/-- 30_encoding.md R53: `dst` names a register that is written, `src` is a value read through `resolve`. -/
inductive Role where
  | dst
  | src
  deriving DecidableEq, Repr

/-- 30_encoding.md R58: a destination is a register reference, a source is a literal or a register reference. -/
def Role.admits : Role → Operand → Bool
  | .dst, .reg _ => true
  | .dst, .lit _ => false
  | .dst, .invalid _ => false
  | .src, .reg _ => true
  | .src, .lit _ => true
  | .src, .invalid _ => false

/-- The operands of an instruction in the order `a`, `b`, `c`, each with its role (30_encoding.md R53). -/
def Instr.operands : Instr → List (Role × Operand)
  | .halt => []
  | .set a b => [(.dst, a), (.src, b)]
  | .push a => [(.src, a)]
  | .pop a => [(.dst, a)]
  | .eq a b c => [(.dst, a), (.src, b), (.src, c)]
  | .gt a b c => [(.dst, a), (.src, b), (.src, c)]
  | .jmp a => [(.src, a)]
  | .jt a b => [(.src, a), (.src, b)]
  | .jf a b => [(.src, a), (.src, b)]
  | .add a b c => [(.dst, a), (.src, b), (.src, c)]
  | .mult a b c => [(.dst, a), (.src, b), (.src, c)]
  | .mod a b c => [(.dst, a), (.src, b), (.src, c)]
  | .and a b c => [(.dst, a), (.src, b), (.src, c)]
  | .or a b c => [(.dst, a), (.src, b), (.src, c)]
  | .not a b => [(.dst, a), (.src, b)]
  | .rmem a b => [(.dst, a), (.src, b)]
  | .wmem a b => [(.src, a), (.src, b)]
  | .call a => [(.src, a)]
  | .ret => []
  | .out a => [(.src, a)]
  | .inp a => [(.dst, a)]
  | .noop => []

/-- Every operand fits its role: the instruction passes the check of 30_encoding.md R58. -/
def Instr.wellFormed (i : Instr) : Bool :=
  i.operands.all fun ro => ro.1.admits ro.2

/-- An operand that is the kind of some word: an `invalid` one holds a word above 32775 (30_encoding.md R49). -/
def Operand.isKind : Operand → Bool
  | .lit _ => true
  | .reg _ => true
  | .invalid w => decide (32775 < w.toNat)

/-- Every operand is the kind of some word, so the instruction has an encoding. Every well-formed one has. -/
def Instr.encodable (i : Instr) : Bool :=
  i.operands.all fun ro => ro.2.isKind

end Sys2Proof
end

