-- ==== Sys2Proof/Decode.lean ====
section
/-! DEFINITION. The opcode map, the decoder (total on any words and bytes, rejecting by name) and the encoder
(30_encoding.md R45 to R62), with the byte order of the image (20_memory.md R36). -/

namespace Sys2Proof

/-! ## Bytes and words -/

/-- 20_memory.md R35, R36: the byte at the lower file offset is the low half of the word. -/
def wordOfBytes (lo hi : Byte) : Word := hi ++ lo

/-- The low byte of a word, which the image holds first (20_memory.md R36). -/
def lowByte (w : Word) : Byte := w.setWidth 8

/-- The high byte of a word, which the image holds second (20_memory.md R36). -/
def highByte (w : Word) : Byte := (w >>> 8).setWidth 8

/-- The words of a byte stream; a trailing odd byte is dropped (20_memory.md R36). -/
def wordsOfBytes : List Byte → List Word
  | lo :: hi :: bs => wordOfBytes lo hi :: wordsOfBytes bs
  | _ => []

/-- The bytes of a list of words in file order (20_memory.md R36). -/
def bytesOfWords (ws : List Word) : List Byte :=
  ws.flatMap fun w => [lowByte w, highByte w]

/-! ## Operand words -/

/-- 30_encoding.md R49: the kind of an operand word, by its value alone. -/
def Operand.ofWord (w : Word) : Operand :=
  if w.toNat < 32768 then .lit (w.setWidth 15)
  else if h : w.toNat - 32768 < 8 then .reg ⟨w.toNat - 32768, h⟩
  else .invalid w

/-- The operand word of an operand (30_encoding.md R49). -/
def Operand.toWord : Operand → Word
  | .lit v => v.setWidth 16
  | .reg i => BitVec.ofNat 16 (32768 + i.val)
  | .invalid w => w

/-! ## The opcode map -/

/-- The 22 opcodes of 30_encoding.md R62, apart from their operands. -/
inductive Opcode where
  | halt | set | push | pop | eq | gt | jmp | jt | jf | add | mult | mod | and | or | not | rmem | wmem | call | ret
  | out | inp | noop
  deriving DecidableEq, Repr

/-- 30_encoding.md R47, R62: the opcode is the whole of word 0; 22 and more select nothing. -/
def Opcode.ofWord (w : Word) : Option Opcode :=
  match w.toNat with
  | 0 => some .halt
  | 1 => some .set
  | 2 => some .push
  | 3 => some .pop
  | 4 => some .eq
  | 5 => some .gt
  | 6 => some .jmp
  | 7 => some .jt
  | 8 => some .jf
  | 9 => some .add
  | 10 => some .mult
  | 11 => some .mod
  | 12 => some .and
  | 13 => some .or
  | 14 => some .not
  | 15 => some .rmem
  | 16 => some .wmem
  | 17 => some .call
  | 18 => some .ret
  | 19 => some .out
  | 20 => some .inp
  | 21 => some .noop
  | _ => none

/-- Word 0 of each instruction (30_encoding.md R62). -/
def Opcode.toWord : Opcode → Word
  | .halt => 0
  | .set => 1
  | .push => 2
  | .pop => 3
  | .eq => 4
  | .gt => 5
  | .jmp => 6
  | .jt => 7
  | .jf => 8
  | .add => 9
  | .mult => 10
  | .mod => 11
  | .and => 12
  | .or => 13
  | .not => 14
  | .rmem => 15
  | .wmem => 16
  | .call => 17
  | .ret => 18
  | .out => 19
  | .inp => 20
  | .noop => 21

/-- The argument count table `NARGS` (30_encoding.md R48). -/
def Opcode.nargs : Opcode → Nat
  | .halt => 0
  | .set => 2
  | .push => 1
  | .pop => 1
  | .eq => 3
  | .gt => 3
  | .jmp => 1
  | .jt => 2
  | .jf => 2
  | .add => 3
  | .mult => 3
  | .mod => 3
  | .and => 3
  | .or => 3
  | .not => 2
  | .rmem => 2
  | .wmem => 2
  | .call => 1
  | .ret => 0
  | .out => 1
  | .inp => 1
  | .noop => 0

/-- The name of an opcode (30_encoding.md R62, R63). -/
def Opcode.mnemonic : Opcode → String
  | .halt => "HALT"
  | .set => "SET"
  | .push => "PUSH"
  | .pop => "POP"
  | .eq => "EQ"
  | .gt => "GT"
  | .jmp => "JMP"
  | .jt => "JT"
  | .jf => "JF"
  | .add => "ADD"
  | .mult => "MULT"
  | .mod => "MOD"
  | .and => "AND"
  | .or => "OR"
  | .not => "NOT"
  | .rmem => "RMEM"
  | .wmem => "WMEM"
  | .call => "CALL"
  | .ret => "RET"
  | .out => "OUT"
  | .inp => "IN"
  | .noop => "NOOP"

/-- The instruction of an opcode with operands `a`, `b`, `c`; an opcode of fewer operands leaves the later ones out
(30_encoding.md R46). -/
def Opcode.instr (o : Opcode) (a b c : Operand) : Instr :=
  match o with
  | .halt => .halt
  | .set => .set a b
  | .push => .push a
  | .pop => .pop a
  | .eq => .eq a b c
  | .gt => .gt a b c
  | .jmp => .jmp a
  | .jt => .jt a b
  | .jf => .jf a b
  | .add => .add a b c
  | .mult => .mult a b c
  | .mod => .mod a b c
  | .and => .and a b c
  | .or => .or a b c
  | .not => .not a b
  | .rmem => .rmem a b
  | .wmem => .wmem a b
  | .call => .call a
  | .ret => .ret
  | .out => .out a
  | .inp => .inp a
  | .noop => .noop

/-- The opcode of an instruction. -/
def Instr.opcode : Instr → Opcode
  | .halt => .halt
  | .set _ _ => .set
  | .push _ => .push
  | .pop _ => .pop
  | .eq _ _ _ => .eq
  | .gt _ _ _ => .gt
  | .jmp _ => .jmp
  | .jt _ _ => .jt
  | .jf _ _ => .jf
  | .add _ _ _ => .add
  | .mult _ _ _ => .mult
  | .mod _ _ _ => .mod
  | .and _ _ _ => .and
  | .or _ _ _ => .or
  | .not _ _ => .not
  | .rmem _ _ => .rmem
  | .wmem _ _ => .wmem
  | .call _ => .call
  | .ret => .ret
  | .out _ => .out
  | .inp _ => .inp
  | .noop => .noop

/-- 30_encoding.md R61: the length in words, decided by the opcode alone. -/
def Instr.length (i : Instr) : Nat := 1 + i.opcode.nargs

/-! ## Decoding -/

/-- Why a list of words is not an instruction. -/
inductive DecodeReject where
  /-- There is no word at all: the end of the image (30_encoding.md R55). -/
  | noOpcode
  /-- The first word is 22 or more (30_encoding.md R59). -/
  | invalidOpcode (op : Word)
  /-- The opcode is one of the 22 but not all of its operand words are there (30_encoding.md R56). -/
  | missingOperands (o : Opcode)
  deriving DecidableEq, Repr

/-- The operand `k` places after the opcode word, read from the words after the opcode. -/
def operandAt (ws : List Word) (k : Nat) : Operand := Operand.ofWord (ws.getD k 0)

/-- The instruction at the head of a list of words (30_encoding.md R54 steps 2 to 4, R61). Words after it are not looked at. -/
def decodeWords : List Word → Except DecodeReject Instr
  | [] => .error .noOpcode
  | op :: ws =>
    match Opcode.ofWord op with
    | none => .error (.invalidOpcode op)
    | some o =>
      if ws.length < o.nargs then .error (.missingOperands o)
      else .ok (o.instr (operandAt ws 0) (operandAt ws 1) (operandAt ws 2))

/-- The instruction at the head of a stream of bytes in file order (20_memory.md R36, 30_encoding.md R46). -/
def decode (bs : List Byte) : Except DecodeReject Instr := decodeWords (wordsOfBytes bs)

/-! ## Encoding -/

/-- The words of an instruction: its opcode word, then its operand words (30_encoding.md R45, R46). -/
def encode (i : Instr) : List Word :=
  i.opcode.toWord :: i.operands.map fun ro => ro.2.toWord

/-- The bytes of an instruction in file order (30_encoding.md R46). -/
def encodeBytes (i : Instr) : List Byte := bytesOfWords (encode i)

/-! ## The host's numbering of an instruction's bits -/

/-- The eight bytes of the longest instruction, in file order, from a number whose bit 0 is the least significant bit of
the first word; bits from `nbits` up are 0. Words are little-endian (20_memory.md R36), so byte `k` is bits `8k` to `8k+7`. -/
def tableBytes (nbits w : Nat) : List Byte :=
  (List.range 8).map fun k => BitVec.ofNat 8 ((w % 2 ^ nbits) / 2 ^ (8 * k))

/-- The instruction the decoder reads from an instruction whose bits are `w`, numbered as spec/opcode_table.json numbers them. -/
def decodeTableWord (nbits w : Nat) : Option Instr :=
  match decode (tableBytes nbits w) with
  | .ok i => some i
  | .error _ => none

end Sys2Proof
end

