-- ==== Sys2Proof/Config.lean ====
section
/-! DEFINITION. The parameters of the hardware (00_scope.md section 3) but for `MEMLEN` and `IMAGE`, which the load gives. -/

namespace Sys2Proof

/-- 00_scope.md R6: what follows the report of an opcode word of 22 or more. -/
inductive InvalidOpcodePolicy where
  | continue
  | halt
  deriving DecidableEq, Repr

/-- The parameters that do not depend on the image. The spec leaves no value open, so no constant here is free. -/
structure Config where
  /-- 00_scope.md R5, `STACK_MAX`: `none` is `unbounded`. -/
  stackMax : Option Nat
  /-- 00_scope.md R6, `INVALID_OPCODE_POLICY`. -/
  invalidOpcode : InvalidOpcodePolicy
  /-- 00_scope.md R7, `DEBUG_ENABLED`. -/
  debugEnabled : Bool
  /-- 00_scope.md R7, `STEP_FROM`. -/
  stepFrom : Word
  deriving DecidableEq, Repr

/-- The defaults of 00_scope.md R5, R6 and R7. -/
def Config.default : Config :=
  { stackMax := none, invalidOpcode := .continue, debugEnabled := false, stepFrom := 0 }

end Sys2Proof
end

