-- ==== Sys2Proof/Machine/State.lean ====
section
/-! DEFINITION. The state of the machine (10_state.md R15, R29), the records in it, its reset value (R30), and the two ways
a step of the model could stop. -/

namespace Sys2Proof.Machine

/-! ## Memory -/

/-- The memory image (10_state.md R28), held as the bytes of the image file: cell `mem[a]` is the bytes at file offsets
`2a` (low) and `2a + 1` (high), 20_memory.md R36. DESIGN CHOICE (log entry 1): safe. No instruction sees a byte. -/
abbrev Memory := List Host.Cell

/-- What an address that is not listed reads as. Every byte inside the image is loaded (20_memory.md R36) and no access
outside it is made (R33, R34), so this value is only how a loaded 0 is held. DESIGN CHOICE (log entry 1): safe. -/
abbrev Memory.unlisted : Byte := 0

/-- The canonical form: addresses strictly rising, and no entry that equals what an unlisted address reads as. -/
abbrev Memory.wf (m : Memory) : Prop :=
  m.Pairwise (fun c d => c.1 < d.1) ∧ ∀ c ∈ m, c.2 ≠ Memory.unlisted

/-! ## Faults, halts and events of the machine -/

/-- 10_state.md R23. -/
inductive Status where
  | running
  | halted
  deriving DecidableEq, Repr

/-- 10_state.md R24. -/
inductive HaltCause where
  | none
  | haltInstr
  | retEmptyStack
  | endOfImage
  | fault
  deriving DecidableEq, Repr

/-- The nine faults of 60_exceptions.md R99. -/
inductive FaultKind where
  | invalidOpcode
  | fetchFault
  | invalidOperand
  | literalDestination
  | stackEmpty
  | divideByZero
  | memAddressFault
  | jumpTargetFault
  | stackOverflow
  deriving DecidableEq, Repr

/-- The `info` of a fault (60_exceptions.md R99): one word, or an operand's position 1 to 3 with its word. -/
inductive FaultInfo where
  | word (w : Word)
  | operand (position : Nat) (w : Word)
  deriving DecidableEq, Repr

/-- The `fault` record (10_state.md R24, 60_exceptions.md R109). Its code is the code of its kind, see `FaultKind.code`. -/
structure FaultRecord where
  kind : FaultKind
  addr : Word
  info : FaultInfo
  deriving DecidableEq, Repr

/-- The kind of a diagnostic: a fault, or the empty-stack halt of `RET` (00_scope.md R12). -/
inductive DiagKind where
  | fault (k : FaultKind)
  | retEmptyStack
  deriving DecidableEq, Repr

/-- The event `Diag(kind, addr, info)` (00_scope.md R12). -/
structure Diag where
  kind : DiagKind
  addr : Word
  info : FaultInfo
  deriving DecidableEq, Repr

/-- What a debugger pause shows (60_exceptions.md R117). -/
structure Snapshot where
  regs : Vector Word 8
  /-- top to bottom -/
  stack : List Word
  /-- the address `p` of the opcode word -/
  addr : Word
  op : Word
  args : List Word
  deriving DecidableEq, Repr

/-- Where inside a cycle the machine waits on its environment (70_reset_and_hazards.md R126).
DESIGN CHOICE (log entry 4): the cycle is split at its two waits, as R126 allows. -/
inductive Wait where
  /-- nowhere: the next step starts a cycle -/
  | none
  /-- held in `IN`, which will write the register (47_io.md R97) -/
  | recv (d : RegIdx)
  /-- held in a debugger pause before the instruction (60_exceptions.md R117) -/
  | confirm (i : Instr)
  deriving DecidableEq, Repr

/-! ## The state -/

/-- Everything the spec gives the machine (10_state.md R15), its parameters (log entry 2), and the model's own `wait`,
`confirms` and `pauses` (log entries 4 and 5). -/
structure State where
  /-- the parameters of 00_scope.md R5 to R7; no step changes them -/
  cfg : Config
  /-- `MEMLEN`, 00_scope.md R4; no step changes it -/
  memLen : Fin 65536
  /-- `x[0]` to `x[7]`, 10_state.md R16 -/
  regs : Vector Word 8
  /-- 10_state.md R19 -/
  pc : Word
  /-- 10_state.md R21, the top entry first -/
  stack : List Word
  /-- 10_state.md R28 -/
  mem : Memory
  /-- 10_state.md R23 -/
  status : Status
  /-- 10_state.md R24 -/
  haltCause : HaltCause
  /-- 10_state.md R24 -/
  fault : Option FaultRecord
  /-- 10_state.md R25 -/
  debugActive : Bool
  /-- the input queue of 10_state.md R29, the next character first -/
  input : List Byte
  /-- the output trace of 00_scope.md R10, the oldest word first -/
  output : List Word
  /-- the diagnostic trace of 10_state.md R29, the oldest event first -/
  diags : List Diag
  /-- the model's own: the wait inside a cycle (log entry 4) -/
  wait : Wait
  /-- the model's own: Confirms given and not yet used by a pause (log entry 5) -/
  confirms : Nat
  /-- the model's own: the `Pause` events of 00_scope.md R13, the oldest first (log entry 5) -/
  pauses : List Snapshot
  deriving DecidableEq, Repr

/-- 10_state.md R30 with the default parameters and `IMAGE` absent, which leaves `MEMLEN = 0` (60_exceptions.md R115).
The absent image and the empty input queue are DESIGN CHOICES (log entry 3): the spec makes both inputs of the run. -/
def State.reset : State :=
  { cfg := Config.default
    memLen := 0
    regs := Vector.replicate 8 0
    pc := 0
    stack := []
    mem := []
    status := .running
    haltCause := .none
    fault := none
    debugActive := false
    input := []
    output := []
    diags := []
    wait := .none
    confirms := 0
    pauses := [] }

/-! ## How an instruction or the model can fail -/

/-- A fault an instruction meets before it has written anything (60_exceptions.md R109): the fault and its `info`. -/
structure Trap where
  kind : FaultKind
  info : FaultInfo
  deriving DecidableEq, Repr

/-- The model's own stops. There is none: every fault of the spec is a NEXT state, in which the machine is halted with the
fault recorded (60_exceptions.md R109). Safe: nothing the spec gives an effect ends a run of the model (log entry 7). -/
inductive Fault where
  deriving DecidableEq, Repr

/-- What the model does not accept. -/
inductive Refusal where
  /-- Raised by `exec` alone, for an instruction that has no meaning yet. Safe: nothing can be proved of it. No arm raises it. -/
  | notModelled (mnemonic : String)
  /-- Raised by the loader `State.boot` alone, for an image of more than 65535 words, given their number: 00_scope.md R4,
  "A model refuses an image of more than 65535 words". Safe: no run starts. -/
  | imageTooLong (words : Nat)
  deriving DecidableEq, Repr

end Sys2Proof.Machine
end

