-- ==== Sys2Proof/Machine/Ops.lean ====
section
/-! DEFINITION. The named operations over memory, registers and the stack, control transfer, and taking a fault. -/

namespace Sys2Proof.Machine

/-! ## Memory -/

/-- The byte of the image at a file offset. -/
def Memory.readByte : Memory → Nat → Byte
  | [], _ => Memory.unlisted
  | (k, b) :: m, a => if k = a then b else Memory.readByte m a

/-- Store a byte at a file offset, keeping the canonical form. -/
def Memory.writeByte : Memory → Nat → Byte → Memory
  | [], a, b => if b = Memory.unlisted then [] else [(a, b)]
  | (k, c) :: m, a, b =>
    if a < k then (if b = Memory.unlisted then (k, c) :: m else (a, b) :: (k, c) :: m)
    else if a = k then (if b = Memory.unlisted then m else (a, b) :: m)
    else (k, c) :: Memory.writeByte m a b

/-- The cell `mem[a]`, as 20_memory.md R36 lays it out. -/
def Memory.readWord (m : Memory) (a : Nat) : Word :=
  wordOfBytes (Memory.readByte m (2 * a)) (Memory.readByte m (2 * a + 1))

/-- Store a word in the cell `mem[a]`, all 16 bits of it (20_memory.md R34). -/
def Memory.writeWord (m : Memory) (a : Nat) (v : Word) : Memory :=
  Memory.writeByte (Memory.writeByte m (2 * a) (lowByte v)) (2 * a + 1) (highByte v)

/-- 20_memory.md R31, R39: the cells are those below `MEMLEN`. -/
def inImage (a : Word) (s : State) : Bool := decide (a.toNat < s.memLen.val)

/-- `MemRead` as `RMEM` uses it (20_memory.md R33, 45_memory.md R90). -/
def memRead (a : Word) (s : State) : Except Trap Word :=
  if inImage a s then .ok (Memory.readWord s.mem a.toNat) else .error ⟨.memAddressFault, .word a⟩

/-- `MemWrite` (20_memory.md R34). -/
def memWrite (a v : Word) (s : State) : Except Trap State :=
  if inImage a s then .ok { s with mem := Memory.writeWord s.mem a.toNat v }
  else .error ⟨.memAddressFault, .word a⟩

/-! ## Registers and stack -/

/-- `x[i]` (10_state.md R16). -/
def readReg (i : RegIdx) (s : State) : Word := s.regs.get i

/-- `x[i] <- v`: the whole word, no register is special and none masks (10_state.md R16, R17). -/
def writeReg (i : RegIdx) (v : Word) (s : State) : State := { s with regs := s.regs.set i.val v i.isLt }

/-- 10_state.md R22: a push tests `STACK_MAX` first. -/
def stackFull (s : State) : Bool :=
  match s.cfg.stackMax with
  | none => false
  | some m => decide (s.stack.length = m)

/-- `push(v)` (10_state.md R22, 60_exceptions.md R108). -/
def pushWord (v : Word) (s : State) : Except Trap State :=
  if stackFull s then .error ⟨.stackOverflow, .word 0⟩ else .ok { s with stack := v :: s.stack }

/-! ## Control transfer -/

/-- `Transfer(t)` (43_jumps.md R78). -/
def transfer (t : Word) (s : State) : Except Trap State :=
  if inImage t s then .ok { s with pc := t } else .error ⟨.jumpTargetFault, .word t⟩

/-! ## Ports -/

/-- `Emit(v)` (00_scope.md R10). -/
def emit (v : Word) (s : State) : State := { s with output := s.output ++ [v] }

/-- `Diag(kind, addr, info)` (00_scope.md R12). -/
def diagnose (k : DiagKind) (p : Word) (info : FaultInfo) (s : State) : State :=
  { s with diags := s.diags ++ [⟨k, p, info⟩] }

/-- `Recv()` and the write of its answer to register `d`; with nothing in the queue the machine is held
(47_io.md R97, 70_reset_and_hazards.md R126; log entry 4). -/
def receive (d : RegIdx) (s : State) : State :=
  match s.input with
  | [] => { s with wait := .recv d }
  | c :: cs => { writeReg d (c.setWidth 16) s with input := cs, wait := .none }

/-! ## Faults and halts -/

/-- The codes 1 to 9 of 60_exceptions.md R99. -/
def FaultKind.code : FaultKind → Nat
  | .invalidOpcode => 1
  | .fetchFault => 2
  | .invalidOperand => 3
  | .literalDestination => 4
  | .stackEmpty => 5
  | .divideByZero => 6
  | .memAddressFault => 7
  | .jumpTargetFault => 8
  | .stackOverflow => 9

/-- The code of a fault record (60_exceptions.md R109). -/
def FaultRecord.code (f : FaultRecord) : Nat := f.kind.code

/-- End the run (10_state.md R23, R24). -/
def haltWith (c : HaltCause) (s : State) : State := { s with status := .halted, haltCause := c }

/-- The part of fault entry that every fault has: the diagnostic, and the record if there is none yet
(60_exceptions.md R100, R109). -/
def report (k : FaultKind) (p : Word) (info : FaultInfo) (s : State) : State :=
  { diagnose (.fault k) p info s with
    fault := match s.fault with
      | none => some ⟨k, p, info⟩
      | some f => some f }

/-- TAKING A FAULT: `raise F(info)` for a fatal fault of the instruction whose opcode word is at `p` (60_exceptions.md R109).
There is no return from it (R111). -/
def raise (k : FaultKind) (p : Word) (info : FaultInfo) (s : State) : State :=
  haltWith .fault (report k p info s)

/-- The address `p` of the opcode word of an instruction of `len` words while it executes, when `pc` already holds
`p + len` (10_state.md R20). -/
def opcodeAddr (len : Nat) (s : State) : Word := s.pc - BitVec.ofNat 16 len

/-- The end of an instruction of `len` words: its new state, or, where it met a fault, the state before it with that fault
taken. So faults are precise (60_exceptions.md R109). -/
def attempt (len : Nat) (s : State) (e : Except Trap State) : Host.Outcome State Fault Refusal :=
  match e with
  | .ok t => .next t
  | .error f => .next (raise f.kind (opcodeAddr len s) f.info s)

end Sys2Proof.Machine
end

