-- ==== Sys2Proof/Machine/Operands.lean ====
section
/-! DEFINITION. The operand resolver (30_encoding.md R49 to R53) and the validation of operands (R58). -/

namespace Sys2Proof.Machine

/-- `resolve` (30_encoding.md R51): the value of a source operand, the whole register for a register reference; an operand
of the third kind has none. -/
def resolve (s : State) : Operand → Option Word
  | .lit v => some (v.setWidth 16)
  | .reg i => some (readReg i s)
  | .invalid _ => none

/-- `regidx` (30_encoding.md R52): the register a destination operand names; only a register reference names one. -/
def regidx : Operand → Option RegIdx
  | .reg i => some i
  | .lit _ => none
  | .invalid _ => none

/-- The value of the source operand at position `k`, or the fault of 30_encoding.md R58. -/
def source (k : Nat) (o : Operand) (s : State) : Except Trap Word :=
  match resolve s o with
  | some v => .ok v
  | none => .error ⟨.invalidOperand, .operand k o.toWord⟩

/-- The register of the destination operand at position `k`, or the fault of 30_encoding.md R58: a word above 32775 is an
invalid operand, a literal is a literal destination. -/
def destination (k : Nat) (o : Operand) : Except Trap RegIdx :=
  match o with
  | .reg i => .ok i
  | .lit v => .error ⟨.literalDestination, .operand k (Operand.lit v).toWord⟩
  | .invalid w => .error ⟨.invalidOperand, .operand k w⟩

/-- An instruction `a` with one source. Each of these five validates the operands in the order `a`, `b`, `c` before anything
else (30_encoding.md R58), then gives the operands' registers and values to the instruction's own effect. -/
def withSrc (len : Nat) (a : Operand) (s : State) (f : Word → Except Trap State) : Host.Outcome State Fault Refusal :=
  attempt len s do
    let u ← source 1 a s
    f u

/-- An instruction `a b` with two sources. -/
def withSrcSrc (len : Nat) (a b : Operand) (s : State) (f : Word → Word → Except Trap State) :
    Host.Outcome State Fault Refusal :=
  attempt len s do
    let u ← source 1 a s
    let v ← source 2 b s
    f u v

/-- An instruction `a` with one destination. -/
def withDst (len : Nat) (a : Operand) (s : State) (f : RegIdx → Except Trap State) : Host.Outcome State Fault Refusal :=
  attempt len s do
    let d ← destination 1 a
    f d

/-- An instruction `a b` with a destination and a source. -/
def withDstSrc (len : Nat) (a b : Operand) (s : State) (f : RegIdx → Word → Except Trap State) :
    Host.Outcome State Fault Refusal :=
  attempt len s do
    let d ← destination 1 a
    let u ← source 2 b s
    f d u

/-- An instruction `a b c` with a destination and two sources. -/
def withDstSrcSrc (len : Nat) (a b c : Operand) (s : State) (f : RegIdx → Word → Word → Except Trap State) :
    Host.Outcome State Fault Refusal :=
  attempt len s do
    let d ← destination 1 a
    let u ← source 2 b s
    let v ← source 3 c s
    f d u v

end Sys2Proof.Machine
end

