-- ==== Sys2Proof/Machine/Alu.lean ====
section
/-! DEFINITION. `ADD`, `MULT`, `MOD`, `AND`, `OR`, `NOT` (44_alu.md). Only `ADD` and `MULT` reduce modulo 32768 (R82). -/

namespace Sys2Proof.Machine

/-- 44_alu.md R83: the exact sum, reduced modulo 32768. -/
def addWords (u v : Word) : Word := BitVec.ofNat 16 ((u.toNat + v.toNat) % 32768)

/-- 44_alu.md R84: the exact product, reduced modulo 32768. -/
def multWords (u v : Word) : Word := BitVec.ofNat 16 ((u.toNat * v.toNat) % 32768)

/-- 44_alu.md R85: the unsigned remainder, for a divisor that is not 0. -/
def modWords (u v : Word) : Word := BitVec.ofNat 16 (u.toNat % v.toNat)

/-- 44_alu.md R88: bits 14 to 0 inverted, bit 15 kept. -/
def notWord (u : Word) : Word := u ^^^ 0x7FFF

/-- `ADD a b c` (44_alu.md R83). -/
def execAdd (a b c : Operand) (s : State) : Host.Outcome State Fault Refusal :=
  withDstSrcSrc 4 a b c s fun d u v => .ok (writeReg d (addWords u v) s)

/-- `MULT a b c` (44_alu.md R84). -/
def execMult (a b c : Operand) (s : State) : Host.Outcome State Fault Refusal :=
  withDstSrcSrc 4 a b c s fun d u v => .ok (writeReg d (multWords u v) s)

/-- `MOD a b c` (44_alu.md R85). -/
def execMod (a b c : Operand) (s : State) : Host.Outcome State Fault Refusal :=
  withDstSrcSrc 4 a b c s fun d u v =>
    if v.toNat = 0 then .error ⟨.divideByZero, .word 0⟩ else .ok (writeReg d (modWords u v) s)

/-- `AND a b c` (44_alu.md R86). -/
def execAnd (a b c : Operand) (s : State) : Host.Outcome State Fault Refusal :=
  withDstSrcSrc 4 a b c s fun d u v => .ok (writeReg d (u &&& v) s)

/-- `OR a b c` (44_alu.md R87). -/
def execOr (a b c : Operand) (s : State) : Host.Outcome State Fault Refusal :=
  withDstSrcSrc 4 a b c s fun d u v => .ok (writeReg d (u ||| v) s)

/-- `NOT a b` (44_alu.md R88). -/
def execNot (a b : Operand) (s : State) : Host.Outcome State Fault Refusal :=
  withDstSrc 3 a b s fun d u => .ok (writeReg d (notWord u) s)

end Sys2Proof.Machine
end

