-- ==== Sys2Proof/Machine/CallRet.lean ====
section
/-! DEFINITION. `CALL` and `RET` (46_call_ret.md). -/

namespace Sys2Proof.Machine

/-- `CALL a` (46_call_ret.md R93): the target is tested before the push, and the push saves `pc`, which is already past the
`CALL`. -/
def execCall (a : Operand) (s : State) : Host.Outcome State Fault Refusal :=
  withSrc 2 a s fun t =>
    if inImage t s then do
      let s' ← pushWord s.pc s
      transfer t s'
    else .error ⟨.jumpTargetFault, .word t⟩

/-- `RET` (46_call_ret.md R94): an empty stack is a halt with a diagnostic, not a fault. -/
def execRet (s : State) : Host.Outcome State Fault Refusal :=
  attempt 1 s
    (match s.stack with
    | [] => .ok (haltWith .retEmptyStack (diagnose .retEmptyStack (opcodeAddr 1 s) (.word 0) s))
    | t :: rest => (transfer t s).map fun s' => { s' with stack := rest })

end Sys2Proof.Machine
end

