-- ==== Sys2Proof/Machine/CharIo.lean ====
section
/-! DEFINITION. `OUT` and `IN` (47_io.md). -/

namespace Sys2Proof.Machine

/-- `OUT a` (47_io.md R96): suppressed while the debugger is active. -/
def execOut (a : Operand) (s : State) : Host.Outcome State Fault Refusal :=
  withSrc 2 a s fun v => .ok (if s.debugActive then s else emit v s)

/-- `IN a` (47_io.md R97): with nothing in the input queue the machine is held. -/
def execIn (a : Operand) (s : State) : Host.Outcome State Fault Refusal :=
  withDst 2 a s fun d => .ok (receive d s)

end Sys2Proof.Machine
end

