-- ==== Sys2Proof/Machine/Flags.lean ====
section
/-! DEFINITION. The machine has no flags (10_state.md R26). This file holds what stands in their place: the truth value that
`EQ` and `GT` write to a general register, and the condition that `JT` and `JF` test. -/

namespace Sys2Proof.Machine

/-- 42_compare.md: 1 for true, 0 for false. -/
def truthWord (b : Bool) : Word := if b then 1 else 0

/-- The comparison of `EQ` (42_compare.md R76): the two full words. -/
def wordsEqual (u v : Word) : Bool := decide (u.toNat = v.toNat)

/-- The comparison of `GT` (42_compare.md R77): strict and unsigned, the first word on the left. -/
def wordGreater (u v : Word) : Bool := decide (v.toNat < u.toNat)

/-- The condition of `JT`, and the opposite of that of `JF`: any word but 0 (43_jumps.md R80, R81). -/
def holds (u : Word) : Bool := decide (u.toNat ≠ 0)

end Sys2Proof.Machine
end

