-- ==== Sys2Proof/Machine/Compare.lean ====
section
/-! DEFINITION. `EQ` and `GT` (42_compare.md). -/

namespace Sys2Proof.Machine

/-- `EQ a b c` (42_compare.md R76). -/
def execEq (a b c : Operand) (s : State) : Host.Outcome State Fault Refusal :=
  withDstSrcSrc 4 a b c s fun d u v => .ok (writeReg d (truthWord (wordsEqual u v)) s)

/-- `GT a b c` (42_compare.md R77). -/
def execGt (a b c : Operand) (s : State) : Host.Outcome State Fault Refusal :=
  withDstSrcSrc 4 a b c s fun d u v => .ok (writeReg d (truthWord (wordGreater u v)) s)

end Sys2Proof.Machine
end

