-- ==== Sys2Proof/Machine/Jumps.lean ====
section
/-! DEFINITION. `JMP`, `JT`, `JF` (43_jumps.md). An untaken jump does not compare its target with `MEMLEN` (R78). -/

namespace Sys2Proof.Machine

/-- `JMP a` (43_jumps.md R79). -/
def execJmp (a : Operand) (s : State) : Host.Outcome State Fault Refusal :=
  withSrc 2 a s fun t => transfer t s

/-- `JT a b` (43_jumps.md R80). -/
def execJt (a b : Operand) (s : State) : Host.Outcome State Fault Refusal :=
  withSrcSrc 3 a b s fun u t => if holds u then transfer t s else .ok s

/-- `JF a b` (43_jumps.md R81). -/
def execJf (a b : Operand) (s : State) : Host.Outcome State Fault Refusal :=
  withSrcSrc 3 a b s fun u t => if holds u then .ok s else transfer t s

end Sys2Proof.Machine
end

