-- ==== Sys2Proof/Machine/LoadStore.lean ====
section
/-! DEFINITION. `RMEM` and `WMEM` (45_memory.md). -/

namespace Sys2Proof.Machine

/-- `RMEM a b` (45_memory.md R90). -/
def execRmem (a b : Operand) (s : State) : Host.Outcome State Fault Refusal :=
  withDstSrc 3 a b s fun d addr => do
    let v ← memRead addr s
    .ok (writeReg d v s)

/-- `WMEM a b` (45_memory.md R91). -/
def execWmem (a b : Operand) (s : State) : Host.Outcome State Fault Refusal :=
  withSrcSrc 3 a b s fun addr v => memWrite addr v s

end Sys2Proof.Machine
end

