-- ==== Sys2Proof/Machine/MoveStack.lean ====
section
/-! DEFINITION. `SET`, `PUSH`, `POP` (41_move_stack.md). -/

namespace Sys2Proof.Machine

/-- `SET a b` (41_move_stack.md R73). -/
def execSet (a b : Operand) (s : State) : Host.Outcome State Fault Refusal :=
  withDstSrc 3 a b s fun d v => .ok (writeReg d v s)

/-- `PUSH a` (41_move_stack.md R74). -/
def execPush (a : Operand) (s : State) : Host.Outcome State Fault Refusal :=
  withSrc 2 a s fun v => pushWord v s

/-- `POP a` (41_move_stack.md R75). -/
def execPop (a : Operand) (s : State) : Host.Outcome State Fault Refusal :=
  withDst 2 a s fun d =>
    match s.stack with
    | [] => .error ⟨.stackEmpty, .word 0⟩
    | v :: rest => .ok { writeReg d v s with stack := rest }

end Sys2Proof.Machine
end

