-- ==== Sys2Proof/Machine/System.lean ====
section
/-! DEFINITION. `HALT` and `NOOP` (40_system.md). Every meaning of the family files is steps 7 and 8 of the cycle of
30_encoding.md R54: it starts with `pc` already past the instruction. -/

namespace Sys2Proof.Machine

/-- `HALT` (40_system.md R71). -/
def execHalt (s : State) : Host.Outcome State Fault Refusal := .next (haltWith .haltInstr s)

/-- `NOOP` (40_system.md R72): only the advance of `pc`, which is done. -/
def execNoop (s : State) : Host.Outcome State Fault Refusal := .next s

end Sys2Proof.Machine
end

