-- ==== Sys2Proof/Machine/Cycle.lean ====
section
/-! DEFINITION. The instruction cycle of 30_encoding.md R54 around `exec`: fetch, the stops before an instruction exists,
the advance of `pc`, and the step debugger (60_exceptions.md section 6). -/

namespace Sys2Proof.Machine

/-- The words at `pc` that lie inside the image, at most as many as the longest instruction has (30_encoding.md R45, R54,
R56). Reading a word has no effect (20_memory.md R38), so it does not matter that a shorter instruction needs fewer. -/
def fetchWords (s : State) : List Word :=
  (List.range (min 4 (s.memLen.val - s.pc.toNat))).map fun k => Memory.readWord s.mem (s.pc.toNat + k)

/-- Steps 1 to 4 of the cycle (30_encoding.md R54): the instruction at `pc`, or why there is none. -/
def fetch (s : State) : Except DecodeReject Instr := decodeWords (fetchWords s)

/-- An opcode word of 22 or more (30_encoding.md R59, 60_exceptions.md R100). -/
def invalidOpcode (op : Word) (s : State) : State :=
  match s.cfg.invalidOpcode with
  | .continue => { report .invalidOpcode s.pc (.word op) s with pc := s.pc + 1 }
  | .halt => raise .invalidOpcode s.pc (.word op) s

/-- A cycle that finds no instruction: the end of the image (30_encoding.md R55), an invalid opcode (R59), or operand words
missing (R56, with `info` the address of the first missing word). -/
def stopCycle (r : DecodeReject) (s : State) : State :=
  match r with
  | .noOpcode => haltWith .endOfImage s
  | .invalidOpcode op => invalidOpcode op s
  | .missingOperands _ => raise .fetchFault s.pc (.word (BitVec.ofNat 16 s.memLen.val)) s

/-- Step 5 of the cycle (30_encoding.md R57). -/
def advance (i : Instr) (s : State) : State := { s with pc := s.pc + BitVec.ofNat 16 i.length }

/-- The trigger of 60_exceptions.md R116 for the instruction whose opcode word is at `p`. -/
def debugTriggers (p : Word) (s : State) : Bool :=
  s.cfg.debugEnabled && (s.debugActive || decide (p = s.cfg.stepFrom))

/-- What a pause before `i` at `p` shows (60_exceptions.md R117). -/
def snapshot (i : Instr) (p : Word) (s : State) : Snapshot :=
  { regs := s.regs, stack := s.stack, addr := p, op := i.opcode.toWord, args := (encode i).tail }

/-- The pause before `i` at `p` (60_exceptions.md R116, R117), up to the wait for Confirm. -/
def pause (i : Instr) (p : Word) (s : State) : State :=
  { s with debugActive := true, pauses := s.pauses ++ [snapshot i p s], wait := .confirm i }

/-- The wait for Confirm (60_exceptions.md R117): with a Confirm the cycle goes on with step 7, without one nothing changes
(log entry 5). -/
def answerPause (i : Instr) (s : State) : Host.Outcome State Fault Refusal :=
  match s.confirms with
  | 0 => .next s
  | n + 1 => exec i { s with confirms := n, wait := .none }

/-- One pass of the cycle (30_encoding.md R54). -/
def cycle (s : State) : Host.Outcome State Fault Refusal :=
  match fetch s with
  | .error r => .next (stopCycle r s)
  | .ok i =>
    if debugTriggers s.pc s then answerPause i (pause i s.pc (advance i s)) else exec i (advance i s)

end Sys2Proof.Machine
end

