-- ==== Sys2Proof/Machine/Loader.lean ====
section
/-! DEFINITION. The image load (20_memory.md R36) and reset with an image and parameters (70_reset_and_hazards.md R120). -/

namespace Sys2Proof.Machine

/-- The bytes of a stream as memory, from a file offset on: canonical, so a byte that reads as unlisted is not listed. -/
def Memory.ofBytes : Nat → List Byte → Memory
  | _, [] => []
  | k, b :: bs => if b = Memory.unlisted then Memory.ofBytes (k + 1) bs else (k, b) :: Memory.ofBytes (k + 1) bs

/-- 70_reset_and_hazards.md R120 without the load: every register and record at the value of 10_state.md R30, with the
parameters and the input queue of the run. -/
def State.resetWith (cfg : Config) (input : List Byte) : State := { State.reset with cfg := cfg, input := input }

/-- `Reset(IMAGE, configuration)` (70_reset_and_hazards.md R120): an absent image leaves `MEMLEN = 0` (60_exceptions.md
R115), a trailing odd byte is dropped (20_memory.md R36), an image of more than 65535 words is refused (00_scope.md R4). -/
def State.boot (cfg : Config) (image : Option (List Byte)) (input : List Byte) : Host.Outcome State Fault Refusal :=
  match image with
  | none => .next (State.resetWith cfg input)
  | some bs =>
    if h : bs.length / 2 < 65536 then
      .next { State.resetWith cfg input with
        memLen := ⟨bs.length / 2, h⟩
        mem := Memory.ofBytes 0 (bs.take (2 * (bs.length / 2))) }
    else .refused (.imageTooLong (bs.length / 2))

/-- The words `mem[0]` to `mem[MEMLEN-1]` (10_state.md R28). -/
def imageWords (s : State) : List Word :=
  (List.range s.memLen.val).map fun a => Memory.readWord s.mem a

/-- Store words in consecutive cells from `a` on. -/
def Memory.writeWords (m : Memory) (a : Nat) : List Word → Memory
  | [] => m
  | w :: ws => Memory.writeWords (Memory.writeWord m a w) (a + 1) ws

/-- Place words at `pc`, as a load of an image that holds them there would: the image reaches at least to their end, as far
as 00_scope.md R4 lets it, and the machine stands at the start of a cycle. -/
def placeAtPc (ws : List Word) (s : State) : State :=
  let ws := ws.take (65535 - s.pc.toNat)
  { s with
    mem := Memory.writeWords s.mem s.pc.toNat ws
    memLen := Fin.ofNat 65536 (max s.memLen.val (s.pc.toNat + ws.length))
    status := .running
    haltCause := .none
    wait := .none }

end Sys2Proof.Machine
end

