-- ==== Sys2Proof/Machine/Step.lean ====
section
/-! DEFINITION. One step: a pass of the cycle, or the rest of one that waits on the environment (70_reset_and_hazards.md
R126). -/

namespace Sys2Proof.Machine

/-- One step of the machine. A `Halted` machine stays as it is (10_state.md R23, log entry 9); a machine that waits goes on
when its environment has answered and stays as it is until then (log entries 4 and 5). -/
def step (s : State) : Host.Outcome State Fault Refusal :=
  match s.status with
  | .halted => .next s
  | .running =>
    match s.wait with
    | .none => cycle s
    | .recv d => .next (receive d s)
    | .confirm i => answerPause i s

/-- The state in which the very next step fetches the instruction whose bits are `w`, numbered as `decodeTableWord` numbers
them: its words stand at `pc`, inside the image. It stands for the load of an image (log entry 3). -/
def State.withFetchWord (s : State) (nbits w : Nat) : State := placeAtPc (wordsOfBytes (tableBytes nbits w)) s

end Sys2Proof.Machine
end

