-- ==== Sys2Proof/Machine/Disassembler.lean ====
section
/-! DEFINITION. The disassembler and the listing syntax (30_encoding.md R63 to R70). It reads words and nothing else (R65). -/

namespace Sys2Proof.Machine

/-- A line of the listing, before it is written out. -/
inductive Line where
  /-- 30_encoding.md R66: an instruction with its operand words -/
  | instr (q : Nat) (o : Opcode) (args : List Word)
  /-- 30_encoding.md R67: a run of `OUT` with their operand words -/
  | outRun (q : Nat) (codes : List Word)
  /-- 30_encoding.md R68, R69: a word that is no whole instruction -/
  | bare (q : Nat) (w : Word)
  deriving DecidableEq, Repr

/-- The operand words of the run of `OUT` at the head of the words, and the words after it (30_encoding.md R67). -/
def takeOutRun : List Word → List Word × List Word
  | w :: v :: ws =>
    if Opcode.ofWord w = some .out then (v :: (takeOutRun ws).1, (takeOutRun ws).2) else ([], w :: v :: ws)
  | ws => ([], ws)

/-- One turn of the walk of 30_encoding.md R66 at address `q`: the line, and the words after it. -/
def disassembleOne (q : Nat) (w : Word) (ws : List Word) : Line × List Word :=
  match Opcode.ofWord w with
  | none => (.bare q w, ws)
  | some .out =>
    match takeOutRun (w :: ws) with
    | ([], _) => (.bare q w, ws)
    | (v :: vs, rest) => (.outRun q (v :: vs), rest)
  | some o =>
    if o.nargs ≤ ws.length then (.instr q o (ws.take o.nargs), ws.drop o.nargs) else (.bare q w, ws)

/-- How many words a line stands for. -/
def Line.size : Line → Nat
  | .instr _ o _ => 1 + o.nargs
  | .outRun _ codes => 2 * codes.length
  | .bare _ _ => 1

/-- The address a line puts first (30_encoding.md R70). -/
def Line.addr : Line → Nat
  | .instr q _ _ => q
  | .outRun q _ => q
  | .bare q _ => q

/-- The words of the image a line stands for. -/
def Line.words : Line → List Word
  | .instr _ o args => o.toWord :: args
  | .outRun _ codes => codes.flatMap fun v => [Opcode.toWord .out, v]
  | .bare _ w => [w]

/-- The walk of 30_encoding.md R66 from address `q`, with fuel for at most so many lines. -/
def walk : Nat → Nat → List Word → List Line
  | 0, _, _ => []
  | _ + 1, _, [] => []
  | fuel + 1, q, w :: ws =>
    let r := disassembleOne q w ws
    r.1 :: walk fuel (q + r.1.size) r.2

/-- The lines of an image (30_encoding.md R65): every line takes at least one word, so the image's length is fuel enough. -/
def disassemble (image : List Word) : List Line := walk image.length 0 image

/-- `opnd(v)` of 30_encoding.md R66: register references by name, every other word in decimal. -/
def renderOperand (v : Word) : String :=
  match Operand.ofWord v with
  | .reg i => "R" ++ toString i.val
  | .lit _ => toString v.toNat
  | .invalid _ => toString v.toNat

/-- `chr_render(v)` of 30_encoding.md R67. -/
def renderCode (v : Word) : String :=
  match Operand.ofWord v with
  | .reg i => "R" ++ toString i.val
  | .lit _ | .invalid _ =>
    if 32 ≤ v.toNat ∧ v.toNat ≤ 126 then String.singleton (Char.ofNat v.toNat)
    else if v.toNat = 10 then "\\n"
    else toString v.toNat

/-- The line as text (30_encoding.md R63, R70), without its newline. -/
def Line.render : Line → String
  | .instr q o args => toString q ++ ": " ++ o.mnemonic ++ String.join (args.map fun v => " " ++ renderOperand v)
  | .outRun q codes => toString q ++ ": OUT \"" ++ String.join (codes.map renderCode) ++ "\""
  | .bare q w => toString q ++ ": " ++ toString w.toNat

/-- The listing of an image (30_encoding.md R70): one line after another, each ending in a newline. -/
def listing (image : List Word) : String := String.join ((disassemble image).map fun l => l.render ++ "\n")

end Sys2Proof.Machine
end

