-- ==== Sys2Proof/Machine/Environment.lean ====
section
/-! DEFINITION. What the environment does to the machine, between steps (00_scope.md R11, R13; log entry 6). -/

namespace Sys2Proof.Machine

/-- The environment hands over characters, after those it has handed over before (00_scope.md R11). -/
def State.supply (cs : List Byte) (s : State) : State := { s with input := s.input ++ cs }

/-- The operator gives one Confirm (00_scope.md R13). -/
def State.confirm (s : State) : State := { s with confirms := s.confirms + 1 }

end Sys2Proof.Machine
end

