-- ==== Sys2Proof/Safety.lean ====
section
/-! DEFINITION. What claims call a good state, a clean end of a run, and a lawful input. -/

namespace Sys2Proof.Machine

/-- The fault record a diagnostic stands for, if it reports a fault (60_exceptions.md R109). -/
def Diag.faultRecord? (d : Diag) : Option FaultRecord :=
  match d.kind with
  | .fault k => some ⟨k, d.addr, d.info⟩
  | .retEmptyStack => none

/-- What the spec says of every state of a run, and every step keeps. -/
structure State.Inv (s : State) : Prop where
  /-- the memory's canonical form (log entry 1) -/
  memCanonical : Memory.wf s.mem
  /-- no cell at or above `MEMLEN` exists (20_memory.md R31, R39) -/
  memInImage : ∀ c ∈ s.mem, c.1 < 2 * s.memLen.val
  /-- 10_state.md R19, R20: `pc` never exceeds `MEMLEN` -/
  pcInImage : s.pc.toNat ≤ s.memLen.val
  /-- 10_state.md R24: `halt_cause` is `None` while the machine is `Running`, and only then -/
  haltedIffCause : s.status = .halted ↔ s.haltCause ≠ .none
  /-- 60_exceptions.md R109: a halt by a fault has a record -/
  faultRecorded : s.haltCause = .fault → s.fault ≠ none
  /-- 60_exceptions.md R100: `fault` keeps the first of the faults reported -/
  faultIsFirst : s.fault = s.diags.findSome? Diag.faultRecord?
  /-- 00_scope.md R5: the stack never holds more than `STACK_MAX` entries -/
  stackBounded : ∀ m, s.cfg.stackMax = some m → s.stack.length ≤ m
  /-- 10_state.md R25: without the debugger `debug_active` is false and nothing pauses -/
  debugOnlyEnabled : s.cfg.debugEnabled = false → s.debugActive = false ∧ s.pauses = []
  /-- 70_reset_and_hazards.md R123: a machine that waits is not halted -/
  waitRunning : s.wait ≠ .none → s.status = .running
  /-- 70_reset_and_hazards.md R126: in a debugger pause the trigger has happened and `pc` is past the instruction, which was
  fetched from memory -/
  confirmPaused : ∀ i, s.wait = .confirm i → s.debugActive = true ∧ i.length ≤ s.pc.toNat ∧ i.encodable = true
  /-- 70_reset_and_hazards.md R126: in a held `IN`, `pc` is past it -/
  recvPastIn : ∀ d, s.wait = .recv d → (Instr.inp (.reg d)).length ≤ s.pc.toNat

/-- A run that ended without any fault. One that skipped an invalid opcode word did not (60_exceptions.md R100).
DESIGN CHOICE (log entry 15): 60_exceptions.md R112 leaves open whether the halts `RetEmptyStack` and `EndOfImage` count as
good ends of a program, and this observation counts both, as it counts `HaltInstr`. -/
def State.cleanEnd (s : State) : Bool :=
  decide (s.status = .halted) && decide (s.haltCause ≠ .fault) && s.fault.isNone

/-- The input contract of 47_io.md R98 on an input queue: it is made of whole lines, so it ends with a newline if it is not
empty. A premise on the environment, which the machine does not check. -/
def wholeLines (q : List Byte) : Bool :=
  match q.getLast? with
  | none => true
  | some c => decide (c = 10)

/-- The effects of instructions one after another, each as its step 8 has it. -/
def execList : List Instr → State → Host.Outcome State Fault Refusal
  | [], s => .next s
  | i :: is, s =>
    match exec i s with
    | .next t => execList is t
    | .fault r => .fault r
    | .refused r => .refused r

/-- What is left of a state when all that the debugger and its suppression of `OUT` can touch is taken away
(60_exceptions.md R118). -/
def State.withoutDebugger (s : State) : State :=
  { s with
    cfg := { s.cfg with debugEnabled := false, stepFrom := 0 }
    debugActive := false
    output := []
    confirms := 0
    pauses := [] }

end Sys2Proof.Machine
end

