-- ==== Sys2Proof/Certificates/Slice0/Obligations.lean ====
section
/-! DEFINITION. The statements about the machine, for the provers. In the statements about one instruction, `s` is the state
in which it executes (step 8 of 30_encoding.md R54): `p` is the address of its opcode word and `pc` is already past it. -/

open Sys2Proof Sys2Proof.Machine

/-! ## The instructions, one statement each: encoding, result, every fault and hold, and (by the record equality) the frame -/

/-- 40_system.md R71; that `Halted` is terminal is `HaltedIsTerminal`. -/
def Obligations.HaltStopsTheRun : Prop :=
  encode .halt = [0x0000] ∧
  ∀ (s : State) (p : Word), s.pc = p + 1 →
    exec .halt s = .next { s with pc := p + 1, status := .halted, haltCause := .haltInstr }

/-- 40_system.md R72. -/
def Obligations.NoopOnlyAdvances : Prop :=
  encode .noop = [0x0015] ∧
  ∀ (s : State) (p : Word), s.pc = p + 1 → exec .noop s = .next { s with pc := p + 1 }

/-- 41_move_stack.md R73. -/
def Obligations.SetCopiesWholeWord : Prop :=
  ∀ (s : State) (p : Word) (a b : Operand) (d : RegIdx) (v : Word),
    s.pc = p + 3 → regidx a = some d → resolve s b = some v →
    encode (.set a b) = [0x0001, a.toWord, b.toWord] ∧
    exec (.set a b) s = .next { s with pc := p + 3, regs := s.regs.set d v }

/-- 41_move_stack.md R74. -/
def Obligations.PushPushesOrOverflows : Prop :=
  ∀ (s : State) (p : Word) (a : Operand) (v : Word),
    s.pc = p + 2 → resolve s a = some v →
    encode (.push a) = [0x0002, a.toWord] ∧
    (s.cfg.stackMax ≠ some s.stack.length →
      exec (.push a) s = .next { s with pc := p + 2, stack := v :: s.stack }) ∧
    (s.cfg.stackMax = some s.stack.length →
      exec (.push a) s = .next (raise .stackOverflow p (.word 0) s))

/-- 41_move_stack.md R75; its order law is `StackIsLastInFirstOut`. -/
def Obligations.PopTakesTopOrStackEmpty : Prop :=
  ∀ (s : State) (p : Word) (a : Operand) (d : RegIdx),
    s.pc = p + 2 → regidx a = some d →
    encode (.pop a) = [0x0003, a.toWord] ∧
    (∀ v rest, s.stack = v :: rest →
      exec (.pop a) s = .next { s with pc := p + 2, regs := s.regs.set d v, stack := rest }) ∧
    (s.stack = [] → exec (.pop a) s = .next (raise .stackEmpty p (.word 0) s))

/-- 42_compare.md R76. -/
def Obligations.EqComparesWholeWords : Prop :=
  ∀ (s : State) (p : Word) (a b c : Operand) (d : RegIdx) (u v : Word),
    s.pc = p + 4 → regidx a = some d → resolve s b = some u → resolve s c = some v →
    encode (.eq a b c) = [0x0004, a.toWord, b.toWord, c.toWord] ∧
    exec (.eq a b c) s = .next { s with pc := p + 4, regs := s.regs.set d (if u = v then 1 else 0) }

/-- 42_compare.md R77. -/
def Obligations.GtComparesUnsigned : Prop :=
  ∀ (s : State) (p : Word) (a b c : Operand) (d : RegIdx) (u v : Word),
    s.pc = p + 4 → regidx a = some d → resolve s b = some u → resolve s c = some v →
    encode (.gt a b c) = [0x0005, a.toWord, b.toWord, c.toWord] ∧
    exec (.gt a b c) s =
      .next { s with pc := p + 4, regs := s.regs.set d (if u.toNat > v.toNat then 1 else 0) }

/-- 43_jumps.md R79. -/
def Obligations.JmpTransfersOrFaults : Prop :=
  ∀ (s : State) (p : Word) (a : Operand) (t : Word),
    s.pc = p + 2 → resolve s a = some t →
    encode (.jmp a) = [0x0006, a.toWord] ∧
    (t.toNat < s.memLen.val → exec (.jmp a) s = .next { s with pc := t }) ∧
    (s.memLen.val ≤ t.toNat → exec (.jmp a) s = .next (raise .jumpTargetFault p (.word t) s))

/-- 43_jumps.md R80. -/
def Obligations.JtJumpsWhenNotZero : Prop :=
  ∀ (s : State) (p : Word) (a b : Operand) (u t : Word),
    s.pc = p + 3 → resolve s a = some u → resolve s b = some t →
    encode (.jt a b) = [0x0007, a.toWord, b.toWord] ∧
    (u = 0 → exec (.jt a b) s = .next { s with pc := p + 3 }) ∧
    (u ≠ 0 → t.toNat < s.memLen.val → exec (.jt a b) s = .next { s with pc := t }) ∧
    (u ≠ 0 → s.memLen.val ≤ t.toNat →
      exec (.jt a b) s = .next (raise .jumpTargetFault p (.word t) s))

/-- 43_jumps.md R81, with what `JT` does on the same operands. -/
def Obligations.JfJumpsWhenZero : Prop :=
  ∀ (s : State) (p : Word) (a b : Operand) (u t : Word),
    s.pc = p + 3 → resolve s a = some u → resolve s b = some t →
    encode (.jf a b) = [0x0008, a.toWord, b.toWord] ∧
    (u ≠ 0 → exec (.jf a b) s = .next { s with pc := p + 3 }) ∧
    (u = 0 → t.toNat < s.memLen.val → exec (.jf a b) s = .next { s with pc := t }) ∧
    (u = 0 → s.memLen.val ≤ t.toNat →
      exec (.jf a b) s = .next (raise .jumpTargetFault p (.word t) s)) ∧
    (u = 0 → exec (.jt a b) s = .next { s with pc := p + 3 }) ∧
    (u ≠ 0 → t.toNat < s.memLen.val → exec (.jt a b) s = .next { s with pc := t })

/-- 44_alu.md R83. -/
def Obligations.AddReducesTo15Bits : Prop :=
  ∀ (s : State) (p : Word) (a b c : Operand) (d : RegIdx) (u v : Word),
    s.pc = p + 4 → regidx a = some d → resolve s b = some u → resolve s c = some v →
    encode (.add a b c) = [0x0009, a.toWord, b.toWord, c.toWord] ∧
    ∃ w : Word, w.toNat = (u.toNat + v.toNat) % 32768 ∧
      exec (.add a b c) s = .next { s with pc := p + 4, regs := s.regs.set d w }

/-- 44_alu.md R84. -/
def Obligations.MultReducesTo15Bits : Prop :=
  ∀ (s : State) (p : Word) (a b c : Operand) (d : RegIdx) (u v : Word),
    s.pc = p + 4 → regidx a = some d → resolve s b = some u → resolve s c = some v →
    encode (.mult a b c) = [0x000A, a.toWord, b.toWord, c.toWord] ∧
    ∃ w : Word, w.toNat = (u.toNat * v.toNat) % 32768 ∧
      exec (.mult a b c) s = .next { s with pc := p + 4, regs := s.regs.set d w }

/-- 44_alu.md R85. -/
def Obligations.ModLeavesRemainderOrDivideByZero : Prop :=
  ∀ (s : State) (p : Word) (a b c : Operand) (d : RegIdx) (u v : Word),
    s.pc = p + 4 → regidx a = some d → resolve s b = some u → resolve s c = some v →
    encode (.mod a b c) = [0x000B, a.toWord, b.toWord, c.toWord] ∧
    (v ≠ 0 → ∃ w : Word, w.toNat < v.toNat ∧ (∃ q, u.toNat = q * v.toNat + w.toNat) ∧
      exec (.mod a b c) s = .next { s with pc := p + 4, regs := s.regs.set d w }) ∧
    (v = 0 → exec (.mod a b c) s = .next (raise .divideByZero p (.word 0) s))

/-- 44_alu.md R86. -/
def Obligations.AndIsBitwise : Prop :=
  ∀ (s : State) (p : Word) (a b c : Operand) (d : RegIdx) (u v : Word),
    s.pc = p + 4 → regidx a = some d → resolve s b = some u → resolve s c = some v →
    encode (.and a b c) = [0x000C, a.toWord, b.toWord, c.toWord] ∧
    ∃ w : Word, (∀ i, i < 16 → w.getLsbD i = (u.getLsbD i && v.getLsbD i)) ∧
      exec (.and a b c) s = .next { s with pc := p + 4, regs := s.regs.set d w }

/-- 44_alu.md R87. -/
def Obligations.OrIsBitwise : Prop :=
  ∀ (s : State) (p : Word) (a b c : Operand) (d : RegIdx) (u v : Word),
    s.pc = p + 4 → regidx a = some d → resolve s b = some u → resolve s c = some v →
    encode (.or a b c) = [0x000D, a.toWord, b.toWord, c.toWord] ∧
    ∃ w : Word, (∀ i, i < 16 → w.getLsbD i = (u.getLsbD i || v.getLsbD i)) ∧
      exec (.or a b c) s = .next { s with pc := p + 4, regs := s.regs.set d w }

/-- 44_alu.md R88, the involution included. -/
def Obligations.NotInverts15Bits : Prop :=
  ∀ (s : State) (p : Word) (a b : Operand) (d : RegIdx) (u : Word),
    s.pc = p + 3 → regidx a = some d → resolve s b = some u →
    encode (.not a b) = [0x000E, a.toWord, b.toWord] ∧
    ∃ w : Word, (∀ i, i < 15 → w.getLsbD i = !u.getLsbD i) ∧ w.getLsbD 15 = u.getLsbD 15 ∧
      (u.toNat < 32768 → w.toNat = 32767 - u.toNat) ∧
      exec (.not a b) s = .next { s with pc := p + 3, regs := s.regs.set d w } ∧
      exec (.not (.reg d) (.reg d)) { s with pc := p + 3, regs := s.regs.set d w } =
        .next { s with pc := p + 3, regs := s.regs.set d u }

/-- 45_memory.md R90. -/
def Obligations.RmemLoadsWholeWord : Prop :=
  ∀ (s : State) (p : Word) (a b : Operand) (d : RegIdx) (addr : Word),
    s.pc = p + 3 → regidx a = some d → resolve s b = some addr →
    encode (.rmem a b) = [0x000F, a.toWord, b.toWord] ∧
    (addr.toNat < s.memLen.val →
      exec (.rmem a b) s =
        .next { s with pc := p + 3, regs := s.regs.set d (Memory.readWord s.mem addr.toNat) }) ∧
    (s.memLen.val ≤ addr.toNat →
      exec (.rmem a b) s = .next (raise .memAddressFault p (.word addr) s))

/-- 45_memory.md R91. The stored word's address is `resolve s a`, as the meaning has it; the memory is in canonical form,
which every step keeps (`StepKeepsInvariant`). -/
def Obligations.WmemStoresOneWord : Prop :=
  ∀ (s : State) (p : Word) (a b : Operand) (addr v : Word),
    s.pc = p + 3 → Memory.wf s.mem → resolve s a = some addr → resolve s b = some v →
    encode (.wmem a b) = [0x0010, a.toWord, b.toWord] ∧
    (addr.toNat < s.memLen.val →
      ∃ t, exec (.wmem a b) s = .next t ∧ t = { s with pc := p + 3, mem := t.mem } ∧
        Memory.readWord t.mem addr.toNat = v ∧
        (∀ k, k ≠ 2 * addr.toNat → k ≠ 2 * addr.toNat + 1 →
          Memory.readByte t.mem k = Memory.readByte s.mem k)) ∧
    (s.memLen.val ≤ addr.toNat →
      exec (.wmem a b) s = .next (raise .memAddressFault p (.word addr) s))

/-- 46_call_ret.md R93. -/
def Obligations.CallPushesReturnAddress : Prop :=
  ∀ (s : State) (p : Word) (a : Operand) (t : Word),
    s.pc = p + 2 → resolve s a = some t →
    encode (.call a) = [0x0011, a.toWord] ∧
    (s.memLen.val ≤ t.toNat → exec (.call a) s = .next (raise .jumpTargetFault p (.word t) s)) ∧
    (t.toNat < s.memLen.val → s.cfg.stackMax = some s.stack.length →
      exec (.call a) s = .next (raise .stackOverflow p (.word 0) s)) ∧
    (t.toNat < s.memLen.val → s.cfg.stackMax ≠ some s.stack.length →
      exec (.call a) s = .next { s with pc := t, stack := (p + 2) :: s.stack })

/-- 46_call_ret.md R94. -/
def Obligations.RetJumpsToTopOrHalts : Prop :=
  encode .ret = [0x0012] ∧
  ∀ (s : State) (p : Word), s.pc = p + 1 →
    (s.stack = [] →
      exec .ret s = .next { s with
        pc := p + 1
        diags := s.diags ++ [⟨.retEmptyStack, p, .word 0⟩]
        status := .halted
        haltCause := .retEmptyStack }) ∧
    ∀ t rest, s.stack = t :: rest →
      (t.toNat < s.memLen.val → exec .ret s = .next { s with pc := t, stack := rest }) ∧
      (s.memLen.val ≤ t.toNat → exec .ret s = .next (raise .jumpTargetFault p (.word t) s))

/-- 47_io.md R96. -/
def Obligations.OutEmitsUnlessDebugging : Prop :=
  ∀ (s : State) (p : Word) (a : Operand) (v : Word),
    s.pc = p + 2 → resolve s a = some v →
    encode (.out a) = [0x0013, a.toWord] ∧
    (s.debugActive = false → exec (.out a) s = .next { s with pc := p + 2, output := s.output ++ [v] }) ∧
    (s.debugActive = true → exec (.out a) s = .next { s with pc := p + 2 })

/-- 47_io.md R97: with a character the instruction completes; without one the machine is held in its wait, neither halted
nor faulted, until the environment supplies one. How the hold is held is the model's own (log entry 4). -/
def Obligations.InReceivesOrHolds : Prop :=
  ∀ (s : State) (p : Word) (a : Operand) (d : RegIdx),
    s.pc = p + 2 → s.wait = .none → s.status = .running → regidx a = some d →
    encode (.inp a) = [0x0014, a.toWord] ∧
    (∀ c cs, s.input = c :: cs →
      exec (.inp a) s =
        .next { s with pc := p + 2, regs := s.regs.set d (BitVec.ofNat 16 c.toNat), input := cs }) ∧
    (s.input = [] → ∃ t, exec (.inp a) s = .next t ∧ t = { s with wait := .recv d } ∧ step t = .next t ∧
      ∀ c cs, step (State.supply (c :: cs) t) =
        .next { s with regs := s.regs.set d (BitVec.ofNat 16 c.toNat), input := cs })

/-! ## Operands and encoding -/

/-- 30_encoding.md R49, R51, R52. -/
def Obligations.OperandWordsResolve : Prop :=
  ∀ s : State,
    (∀ w : Word, w.toNat ≤ 32767 →
      resolve s (Operand.ofWord w) = some w ∧ regidx (Operand.ofWord w) = none) ∧
    (∀ i : RegIdx,
      resolve s (Operand.ofWord (BitVec.ofNat 16 (32768 + i.val))) = some (s.regs.get i) ∧
      regidx (Operand.ofWord (BitVec.ofNat 16 (32768 + i.val))) = some i ∧
      ∀ v : Word, resolve (writeReg i v s) (Operand.ofWord (BitVec.ofNat 16 (32768 + i.val))) = some v) ∧
    (∀ w : Word, 32776 ≤ w.toNat →
      resolve s (Operand.ofWord w) = none ∧ regidx (Operand.ofWord w) = none)

/-- 30_encoding.md R50. -/
def Obligations.OperandKindsByBits : Prop :=
  ∀ w : Word,
    (w.getLsbD 15 = false → Operand.ofWord w = .lit (w.extractLsb' 0 15)) ∧
    (w.getLsbD 15 = true → w.extractLsb' 3 12 = 0 →
      Operand.ofWord w = .reg (w.extractLsb' 0 3).toFin) ∧
    (w.getLsbD 15 = true → w.extractLsb' 3 12 ≠ 0 → Operand.ofWord w = .invalid w)

/-- 30_encoding.md R58, 60_exceptions.md R102, R103: the first operand that does not fit its role is the one reported, before
any effect of the instruction; with none there is no such fault. -/
def Obligations.OperandsAreValidatedFirst : Prop :=
  ∀ (i : Instr) (s : State), i.encodable = true →
    (∀ k r o, i.operands[k]? = some (r, o) → r.admits o = false →
      (∀ j r' o', j < k → i.operands[j]? = some (r', o') → r'.admits o' = true) →
      exec i s = .next (raise
        (if 32775 < o.toWord.toNat then .invalidOperand else .literalDestination)
        (s.pc - BitVec.ofNat 16 i.length) (.operand (k + 1) o.toWord) s)) ∧
    (i.wellFormed = true → ∀ p info,
      exec i s ≠ .next (raise .invalidOperand p info s) ∧
      exec i s ≠ .next (raise .literalDestination p info s))

/-- 30_encoding.md R48. -/
def Obligations.ArgumentCounts : Prop :=
  ((List.range 22).map fun k => (Opcode.ofWord (BitVec.ofNat 16 k)).map Opcode.nargs) =
    [0, 2, 1, 1, 3, 3, 1, 2, 2, 3, 3, 3, 3, 3, 2, 2, 2, 1, 0, 1, 1, 0].map some ∧
  ∀ w : Word, 22 ≤ w.toNat → Opcode.ofWord w = none

/-- 30_encoding.md R62: the names of the opcodes 0 to 21, and one word sequence of each format read as the instruction it
stands for. -/
def Obligations.OpcodeNamesAndSampleWords : Prop :=
  ((List.range 22).map fun k => (Opcode.ofWord (BitVec.ofNat 16 k)).map Opcode.mnemonic) =
    ["HALT", "SET", "PUSH", "POP", "EQ", "GT", "JMP", "JT", "JF", "ADD", "MULT", "MOD", "AND", "OR", "NOT", "RMEM", "WMEM",
      "CALL", "RET", "OUT", "IN", "NOOP"].map some ∧
  decode [0x12, 0x00] = .ok .ret ∧
  decode [0x13, 0x00, 0x41, 0x00] = .ok (.out (.lit 65)) ∧
  decode [0x10, 0x00, 0x00, 0x80, 0x01, 0x80] = .ok (.wmem (.reg 0) (.reg 1)) ∧
  decode [0x09, 0x00, 0x00, 0x80, 0x01, 0x80, 0x04, 0x00] = .ok (.add (.reg 0) (.reg 1) (.lit 4)) ∧
  decode [0x01, 0x00, 0x07, 0x80, 0x08, 0x80] = .ok (.set (.reg 7) (.invalid 32776)) ∧
  decode [0x16, 0x00] = .error (.invalidOpcode 22) ∧
  decode [0x01, 0x00, 0x00, 0x80] = .error (.missingOperands .set)

/-- 30_encoding.md R45, R46: decoding an encoded instruction gives it back, as words and as bytes, whatever follows it; every
well-formed instruction has an encoding, and so has each that operand validation rejects. -/
def Obligations.DecodeOfEncode : Prop :=
  (∀ i : Instr, i.wellFormed = true → i.encodable = true) ∧
  ∀ i : Instr, i.encodable = true →
    (∀ ws, decodeWords (encode i ++ ws) = .ok i) ∧
    (∀ bs, decode (encodeBytes i ++ bs) = .ok i) ∧
    (encode i).length = i.length

/-- 30_encoding.md R60, R61: the words an instruction is decoded from are its encoding, so each word has one meaning. -/
def Obligations.EncodeOfDecode : Prop :=
  ∀ (ws : List Word) (i : Instr), decodeWords ws = .ok i →
    i.encodable = true ∧ ws.take i.length = encode i

/-- 30_encoding.md R47, R61: every list of words is an instruction or is rejected for exactly one of three reasons. -/
def Obligations.DecodeRejectsExactly : Prop :=
  ∀ ws : List Word,
    (decodeWords ws = .error .noOpcode ↔ ws = []) ∧
    (∀ op, decodeWords ws = .error (.invalidOpcode op) ↔ ws.head? = some op ∧ 22 ≤ op.toNat) ∧
    (∀ o, decodeWords ws = .error (.missingOperands o) ↔
      ws.head? = some o.toWord ∧ ws.length ≤ o.nargs) ∧
    ((∃ i, decodeWords ws = .ok i) ↔
      ∃ o : Opcode, ws.head? = some o.toWord ∧ o.nargs < ws.length)

/-! ## The cycle -/

/-- 30_encoding.md R54, R57: a step runs the instruction decoded at `pc`, with `pc` past its words. -/
def Obligations.StepRunsDecodedInstruction : Prop :=
  ∀ (s : State) (i : Instr),
    s.status = .running → s.wait = .none → debugTriggers s.pc s = false →
    decodeWords (fetchWords s) = .ok i →
    step s = exec i { s with pc := s.pc + BitVec.ofNat 16 i.length }

/-- 30_encoding.md R45, R54: where the words of memory from `pc` on are the encoding of an instruction and lie inside the
image, a step runs that instruction. -/
def Obligations.StepRunsEncodedInstruction : Prop :=
  ∀ (s : State) (i : Instr),
    s.status = .running → s.wait = .none → s.cfg.debugEnabled = false → i.encodable = true →
    s.pc.toNat + i.length ≤ s.memLen.val →
    (∀ k, k < i.length → (encode i)[k]? = some (Memory.readWord s.mem (s.pc.toNat + k))) →
    ∃ t, step s = exec i t ∧ t = { s with pc := t.pc } ∧ t.pc.toNat = s.pc.toNat + i.length

/-- 30_encoding.md R55. In a state that has the invariant this happens only at `MEMLEN` itself. -/
def Obligations.EndOfImageHalts : Prop :=
  ∀ s : State, s.status = .running → s.wait = .none → s.memLen.val ≤ s.pc.toNat →
    step s = .next { s with status := .halted, haltCause := .endOfImage } ∧ (s.Inv → s.pc.toNat = s.memLen.val)

/-- 60_exceptions.md R101 (30_encoding.md R56). -/
def Obligations.MissingOperandsFetchFault : Prop :=
  ∀ (s : State) (o : Opcode), s.status = .running → s.wait = .none → s.pc.toNat < s.memLen.val →
    Memory.readWord s.mem s.pc.toNat = o.toWord → s.memLen.val ≤ s.pc.toNat + o.nargs →
    step s = .next (raise .fetchFault s.pc (.word (BitVec.ofNat 16 s.memLen.val)) s)

/-- 30_encoding.md R59, 60_exceptions.md R100. -/
def Obligations.InvalidOpcodeIsSkippedOrHalts : Prop :=
  ∀ (s : State) (op : Word), s.status = .running → s.wait = .none → s.pc.toNat < s.memLen.val →
    Memory.readWord s.mem s.pc.toNat = op → 22 ≤ op.toNat →
    (s.cfg.invalidOpcode = .continue →
      step s = .next { s with
        pc := s.pc + 1
        diags := s.diags ++ [⟨.fault .invalidOpcode, s.pc, .word op⟩]
        fault := some (s.fault.getD ⟨.invalidOpcode, s.pc, .word op⟩) }) ∧
    (s.cfg.invalidOpcode = .halt →
      step s = .next { s with
        status := .halted
        haltCause := .fault
        diags := s.diags ++ [⟨.fault .invalidOpcode, s.pc, .word op⟩]
        fault := some (s.fault.getD ⟨.invalidOpcode, s.pc, .word op⟩) })

/-- 10_state.md R23. That the step then answers the same state is the model's own (log entry 9). -/
def Obligations.HaltedIsTerminal : Prop :=
  ∀ (s : State) (n : Nat), s.status = .halted → Host.Core.run Sys2Proof.core n s = .next s

/-! ## Faults -/

/-- 60_exceptions.md R99, R109. -/
def Obligations.FaultEntry : Prop :=
  ∀ (k : FaultKind) (p : Word) (info : FaultInfo) (s : State),
    raise k p info s = { s with
      diags := s.diags ++ [⟨.fault k, p, info⟩]
      fault := some (s.fault.getD ⟨k, p, info⟩)
      status := .halted
      haltCause := .fault } ∧
    [FaultKind.invalidOpcode, .fetchFault, .invalidOperand, .literalDestination, .stackEmpty, .divideByZero,
      .memAddressFault, .jumpTargetFault, .stackOverflow].map FaultKind.code = [1, 2, 3, 4, 5, 6, 7, 8, 9]

/-- 60_exceptions.md R109: an instruction that halts the machine with a fault has no effect but the fault's. -/
def Obligations.FaultsArePrecise : Prop :=
  ∀ (i : Instr) (s t : State), s.haltCause ≠ .fault → exec i s = .next t → t.haltCause = .fault →
    ∃ k info, t = raise k (s.pc - BitVec.ofNat 16 i.length) info s

/-- 60_exceptions.md R99, rows 5 to 9: a well-formed instruction raises a fault exactly under the condition of its column
"raised when", with the `info` of that row and the address of its opcode word. -/
def Obligations.FaultsOfEachInstruction : Prop :=
  ∀ (i : Instr) (s : State) (k : FaultKind) (p : Word) (info : FaultInfo), i.wellFormed = true →
    (exec i s = .next (raise k p info s) ↔
      p = s.pc - BitVec.ofNat 16 i.length ∧
      ((k = .stackEmpty ∧ info = .word 0 ∧ s.stack = [] ∧ ∃ a, i = .pop a) ∨
       (k = .divideByZero ∧ info = .word 0 ∧ ∃ a b c, i = .mod a b c ∧ resolve s c = some 0) ∨
       (k = .memAddressFault ∧ ∃ addr : Word, info = .word addr ∧ s.memLen.val ≤ addr.toNat ∧
        ((∃ a b, i = .rmem a b ∧ resolve s b = some addr) ∨ (∃ a b, i = .wmem a b ∧ resolve s a = some addr))) ∨
       (k = .jumpTargetFault ∧ ∃ t : Word, info = .word t ∧ s.memLen.val ≤ t.toNat ∧
        ((∃ a, i = .jmp a ∧ resolve s a = some t) ∨
         (∃ a b u, i = .jt a b ∧ resolve s a = some u ∧ u ≠ 0 ∧ resolve s b = some t) ∨
         (∃ a b, i = .jf a b ∧ resolve s a = some 0 ∧ resolve s b = some t) ∨
         (∃ a, i = .call a ∧ resolve s a = some t) ∨
         (i = .ret ∧ s.stack.head? = some t))) ∨
       (k = .stackOverflow ∧ info = .word 0 ∧ s.cfg.stackMax = some s.stack.length ∧
        ((∃ a, i = .push a) ∨ (∃ a t, i = .call a ∧ resolve s a = some t ∧ t.toNat < s.memLen.val)))))

/-- Every instruction and every step answers a next state. 60_exceptions.md R99 and R109 leave no fault without an effect, and
that a fault is a next state is the model's reading (log entry 7). Where the spec gives the machine no step the model's step
answers the same state: held in an `IN` or in a debugger pause (47_io.md R97, 60_exceptions.md R117; log entry 4), and `Halted`
(10_state.md R23, 30_encoding.md R54; log entry 9). -/
def Obligations.EveryStepAnswers : Prop :=
  (∀ (i : Instr) (s : State), ∃ t, exec i s = .next t) ∧ ∀ s : State, ∃ t, step s = .next t

/-! ## What no instruction does -/

/-- 10_state.md R18, R21, R28 and the output, input and diagnostic ports of 00_scope.md R10 to R12: which instructions can
change what. An instruction makes a diagnostic only where it halts the machine, by a fault or by `RET` on an empty stack. -/
def Obligations.OnlyTheseInstructionsWrite : Prop :=
  ∀ (i : Instr) (s t : State), exec i s = .next t →
    (∀ r : RegIdx, t.regs.get r ≠ s.regs.get r → i.operands.head? = some (.dst, .reg r)) ∧
    (t.mem ≠ s.mem → i.opcode = .wmem) ∧
    (t.stack ≠ s.stack → i.opcode ∈ [Opcode.push, .pop, .call, .ret]) ∧
    (t.pc ≠ s.pc → i.opcode ∈ [Opcode.jmp, .jt, .jf, .call, .ret]) ∧
    (t.output ≠ s.output → i.opcode = .out) ∧
    (t.input ≠ s.input → i.opcode = .inp) ∧
    (t.diags ≠ s.diags → t.status = .halted ∧ (t.haltCause = .fault ∨ (t.haltCause = .retEmptyStack ∧ i.opcode = .ret))) ∧
    t.debugActive = s.debugActive ∧ t.confirms = s.confirms ∧ t.pauses = s.pauses

/-- 00_scope.md R4 to R7, 10_state.md R24, R25, R29: what no step changes, and what a step only adds to or takes from the
front of. -/
def Obligations.StepsNeverUndo : Prop :=
  ∀ s t : State, step s = .next t →
    t.cfg = s.cfg ∧ t.memLen = s.memLen ∧
    (s.debugActive = true → t.debugActive = true) ∧
    (∀ f, s.fault = some f → t.fault = some f) ∧
    (s.status = .halted → t.status = .halted) ∧
    s.output <+: t.output ∧ s.diags <+: t.diags ∧ s.pauses <+: t.pauses ∧ t.input <:+ s.input

/-! ## The invariant -/

/-- The invariant of `State.Inv`, each clause of which names its rule: every step keeps it, from any state that has it. -/
def Obligations.StepKeepsInvariant : Prop :=
  ∀ s t : State, s.Inv → step s = .next t → t.Inv

/-- The invariant holds at `State.reset`. -/
def Obligations.ResetHasInvariant : Prop :=
  State.reset.Inv

/-- The invariant holds after a reset with any parameters, image and input (70_reset_and_hazards.md R120), and what the
environment does between steps keeps it. -/
def Obligations.BootAndEnvironmentHaveInvariant : Prop :=
  (∀ (cfg : Config) (image : Option (List Byte)) (input : List Byte) (s : State),
    State.boot cfg image input = .next s → s.Inv) ∧
  ∀ (s : State) (cs : List Byte), s.Inv → (State.supply cs s).Inv ∧ (State.confirm s).Inv

/-! ## Reset and load -/

/-- 20_memory.md R36, 00_scope.md R4. -/
def Obligations.ImageLoadIsLittleEndian : Prop :=
  ∀ (cfg : Config) (bs : List Byte) (input : List Byte),
    (bs.length / 2 ≤ 65535 →
      ∃ s, State.boot cfg (some bs) input = .next s ∧ s.memLen.val = bs.length / 2 ∧
        ∀ i lo hi, i < bs.length / 2 → bs[2 * i]? = some lo → bs[2 * i + 1]? = some hi →
          (Memory.readWord s.mem i).toNat = lo.toNat + 256 * hi.toNat) ∧
    (65535 < bs.length / 2 → State.boot cfg (some bs) input = .refused (.imageTooLong (bs.length / 2))) ∧
    ∃ s, State.boot cfg none input = .next s ∧ s.memLen.val = 0

/-- 10_state.md R30. -/
def Obligations.ResetLeavesTheStatedValues : Prop :=
  ∀ (cfg : Config) (bs input : List Byte) (s : State), State.boot cfg (some bs) input = .next s →
    imageWords s = wordsOfBytes bs ∧
    (∀ i : RegIdx, s.regs.get i = 0) ∧ s.pc = 0 ∧ s.stack = [] ∧
    s.status = .running ∧ s.haltCause = .none ∧ s.fault = none ∧ s.debugActive = false ∧
    s.output = [] ∧ s.diags = [] ∧ s.input = input ∧ s.cfg = cfg

/-- 60_exceptions.md R115. That `State.reset` is the reset with an absent image, the default parameters and no input is the
model's choice (log entry 3). -/
def Obligations.AbsentImageEndsAtOnce : Prop :=
  (∀ (cfg : Config) (input : List Byte), ∃ s, State.boot cfg none input = .next s ∧ s.memLen.val = 0 ∧ s.mem = [] ∧
    s = { State.reset with cfg := cfg, input := input } ∧
    step s = .next { s with status := .halted, haltCause := .endOfImage }) ∧
  State.boot Config.default none [] = .next State.reset

/-! ## Memory, stack and arithmetic laws -/

/-- 20_memory.md R34, R41, R43: after a store inside the image, `RMEM`, and the fetch of an instruction that covers the cell,
see the word stored, and every other cell reads as before. -/
def Obligations.StoresAreSeenByLoadsAndFetch : Prop :=
  ∀ (s t : State) (a v : Word), Memory.wf s.mem → a.toNat < s.memLen.val → memWrite a v s = .ok t →
    memRead a t = .ok v ∧
    (∀ b : Word, b ≠ a → memRead b t = memRead b s) ∧
    ∀ (q : Word) (k : Nat), k < 4 → q.toNat + k = a.toNat →
      (fetchWords { t with pc := q })[k]? = some v

/-- 10_state.md R22: what was pushed last is popped first. -/
def Obligations.StackIsLastInFirstOut : Prop :=
  ∀ (s : State) (os : List Operand) (vs : List Word) (d : RegIdx) (k : Nat),
    os.map (resolve s) = vs.map some → (∀ m, s.cfg.stackMax = some m → s.stack.length + vs.length ≤ m) →
    k < vs.length →
    ∃ t, execList (os.map Instr.push ++ List.replicate (k + 1) (Instr.pop (.reg d))) s = .next t ∧
      some (t.regs.get d) = vs.reverse[k]? ∧
      t.stack = vs.reverse.drop (k + 1) ++ s.stack

/-- 46_call_ret.md R95: two steps, a `CALL` and the `RET` it jumps to, lead to the instruction after the `CALL`, with
everything else as it was. -/
def Obligations.CallThenRetResumes : Prop :=
  ∀ (s : State) (w t : Word),
    s.status = .running → s.wait = .none → s.cfg.debugEnabled = false →
    s.pc.toNat + 2 < s.memLen.val → Memory.readWord s.mem s.pc.toNat = 17 →
    Memory.readWord s.mem (s.pc.toNat + 1) = w → resolve s (Operand.ofWord w) = some t →
    t.toNat < s.memLen.val → Memory.readWord s.mem t.toNat = 18 →
    s.cfg.stackMax ≠ some s.stack.length →
    Host.Core.run Sys2Proof.core 2 s = .next { s with pc := s.pc + 2 }

/-- 44_alu.md R89: `ADD` and `MULT` may be computed in any number of bits from 16 up. -/
def Obligations.IntermediateWidthDoesNotMatter : Prop :=
  ∀ (u v : Word) (width : Nat), 16 ≤ width →
    (addWords u v).toNat = (BitVec.ofNat width u.toNat + BitVec.ofNat width v.toNat).toNat % 32768 ∧
    (multWords u v).toNat = (BitVec.ofNat width u.toNat * BitVec.ofNat width v.toNat).toNat % 32768

/-! ## The environment and the debugger -/

/-- 47_io.md R98: under the input contract an `IN` leaves whole lines, and can leave nothing only by taking a newline; what
the environment adds in whole lines keeps the contract. -/
def Obligations.InputStaysWholeLines : Prop :=
  ∀ (s : State) (d : RegIdx), wholeLines s.input = true →
    (∀ t, exec (.inp (.reg d)) s = .next t → wholeLines t.input = true ∧
      (s.input ≠ [] → t.input = [] → t.regs.get d = 10)) ∧
    ∀ cs, wholeLines cs = true → wholeLines (State.supply cs s).input = true

/-- 60_exceptions.md R116, R117, 70_reset_and_hazards.md R126: where the debugger triggers the machine pauses before the
instruction, `pc` past it, and goes on with it on a Confirm. That a step of the paused machine without a Confirm answers the
same state is the model's own (log entry 4), and so is that a Confirm may be there before its pause (log entry 5). -/
def Obligations.DebuggerPausesUntilConfirm : Prop :=
  ∀ (s : State) (i : Instr), s.status = .running → s.wait = .none → decodeWords (fetchWords s) = .ok i →
    s.cfg.debugEnabled = true → (s.debugActive = true ∨ s.pc = s.cfg.stepFrom) → ∀ t : State,
    t = { s with
      pc := s.pc + BitVec.ofNat 16 i.length
      debugActive := true
      pauses := s.pauses ++ [⟨s.regs, s.stack, s.pc, i.opcode.toWord, i.operands.map fun ro => ro.2.toWord⟩] } →
    (s.confirms = 0 →
      step s = .next { t with wait := .confirm i } ∧
      step { t with wait := .confirm i } = .next { t with wait := .confirm i } ∧
      step (State.confirm { t with wait := .confirm i }) = exec i t) ∧
    ∀ n, s.confirms = n + 1 → step s = exec i { t with confirms := n }

/-- 60_exceptions.md R118: with a Confirm for every pause, a step with the debugger and the step without it agree on
everything but the output, of which the debugger can only suppress what that step emits. That a Confirm may be there before
its pause is the model's own (log entry 5). -/
def Obligations.DebuggerChangesOnlyOutput : Prop :=
  ∀ s t s' : State,
    s.withoutDebugger = t.withoutDebugger → t.cfg.debugEnabled = false → t.debugActive = false →
    0 < s.confirms → (∀ i, s.wait ≠ .confirm i) → step s = .next s' →
    ∃ t', step t = .next t' ∧ s'.withoutDebugger = t'.withoutDebugger ∧
      ∃ o, t'.output = t.output ++ o ∧
        (s'.output = s.output ++ o ∨ (s'.output = s.output ∧ s'.debugActive = true))

/-! ## The disassembler -/

/-- 30_encoding.md R65, R66: the lines of a listing stand for the words of the image, each word once and in order, and every
line names the address of its first word. -/
def Obligations.ListingCoversTheImage : Prop :=
  ∀ ws : List Word,
    (disassemble ws).flatMap Line.words = ws ∧
    ∀ k l, (disassemble ws)[k]? = some l →
      l.addr = (((disassemble ws).take k).flatMap Line.words).length

/-- 30_encoding.md R66: an image of whole instructions, none of them `OUT`, is listed one line an instruction, with its
mnemonic and operand words. -/
def Obligations.ListingReadsBackInstructions : Prop :=
  ∀ is : List Instr, (∀ i ∈ is, i.opcode ≠ .out) →
    (disassemble (is.flatMap encode)).map (fun l => (l.words, l.size)) =
      is.map (fun i => (encode i, i.length)) ∧
    (disassemble (is.flatMap encode)).map (fun l => match l with | .instr _ o _ => some o.mnemonic | _ => none) =
      is.map (fun i => some i.opcode.mnemonic)

/-- 30_encoding.md R66 and R67: how an operand word and a character code are written. -/
def Obligations.OperandAndCodeText : Prop :=
  ∀ v : Word,
    (∀ i : RegIdx, v.toNat = 32768 + i.val →
      renderOperand v = "R" ++ toString i.val ∧ renderCode v = "R" ++ toString i.val) ∧
    (v.toNat < 32768 ∨ 32776 ≤ v.toNat →
      renderOperand v = toString v.toNat ∧
      (32 ≤ v.toNat → v.toNat ≤ 126 → renderCode v = String.singleton (Char.ofNat v.toNat)) ∧
      (v.toNat = 10 → renderCode v = "\\n") ∧
      (v.toNat ≠ 10 → v.toNat < 32 ∨ 126 < v.toNat → renderCode v = toString v.toNat))

/-- The example of 30_encoding.md R70. -/
def Obligations.ListingOfTheExample : Prop :=
  listing [1, 32768, 72, 19, 72, 19, 105, 19, 10, 19, 32768, 0, 999] =
    "0: SET R0 72\n3: OUT \"Hi\\nR0\"\n11: HALT\n12: 999\n"
end

