-- ==== Sys2Proof/Laws/State.lean ====
section
/-! SUPPORT. One lemma per field of State and named update of it, so that no proof unfolds a record update. -/

namespace Sys2Proof.Machine

/-! ## writeReg -/

@[simp] theorem writeReg_cfg (i : RegIdx) (v : Word) (s : State) : (writeReg i v s).cfg = s.cfg := rfl
@[simp] theorem writeReg_memLen (i : RegIdx) (v : Word) (s : State) : (writeReg i v s).memLen = s.memLen := rfl
@[simp] theorem writeReg_regs (i : RegIdx) (v : Word) (s : State) : (writeReg i v s).regs = s.regs.set i.val v i.isLt := rfl
@[simp] theorem writeReg_pc (i : RegIdx) (v : Word) (s : State) : (writeReg i v s).pc = s.pc := rfl
@[simp] theorem writeReg_stack (i : RegIdx) (v : Word) (s : State) : (writeReg i v s).stack = s.stack := rfl
@[simp] theorem writeReg_mem (i : RegIdx) (v : Word) (s : State) : (writeReg i v s).mem = s.mem := rfl
@[simp] theorem writeReg_status (i : RegIdx) (v : Word) (s : State) : (writeReg i v s).status = s.status := rfl
@[simp] theorem writeReg_haltCause (i : RegIdx) (v : Word) (s : State) : (writeReg i v s).haltCause = s.haltCause := rfl
@[simp] theorem writeReg_fault (i : RegIdx) (v : Word) (s : State) : (writeReg i v s).fault = s.fault := rfl
@[simp] theorem writeReg_debugActive (i : RegIdx) (v : Word) (s : State) : (writeReg i v s).debugActive = s.debugActive := rfl
@[simp] theorem writeReg_input (i : RegIdx) (v : Word) (s : State) : (writeReg i v s).input = s.input := rfl
@[simp] theorem writeReg_output (i : RegIdx) (v : Word) (s : State) : (writeReg i v s).output = s.output := rfl
@[simp] theorem writeReg_diags (i : RegIdx) (v : Word) (s : State) : (writeReg i v s).diags = s.diags := rfl
@[simp] theorem writeReg_wait (i : RegIdx) (v : Word) (s : State) : (writeReg i v s).wait = s.wait := rfl
@[simp] theorem writeReg_confirms (i : RegIdx) (v : Word) (s : State) : (writeReg i v s).confirms = s.confirms := rfl
@[simp] theorem writeReg_pauses (i : RegIdx) (v : Word) (s : State) : (writeReg i v s).pauses = s.pauses := rfl

/-! ## emit -/

@[simp] theorem emit_cfg (v : Word) (s : State) : (emit v s).cfg = s.cfg := rfl
@[simp] theorem emit_memLen (v : Word) (s : State) : (emit v s).memLen = s.memLen := rfl
@[simp] theorem emit_regs (v : Word) (s : State) : (emit v s).regs = s.regs := rfl
@[simp] theorem emit_pc (v : Word) (s : State) : (emit v s).pc = s.pc := rfl
@[simp] theorem emit_stack (v : Word) (s : State) : (emit v s).stack = s.stack := rfl
@[simp] theorem emit_mem (v : Word) (s : State) : (emit v s).mem = s.mem := rfl
@[simp] theorem emit_status (v : Word) (s : State) : (emit v s).status = s.status := rfl
@[simp] theorem emit_haltCause (v : Word) (s : State) : (emit v s).haltCause = s.haltCause := rfl
@[simp] theorem emit_fault (v : Word) (s : State) : (emit v s).fault = s.fault := rfl
@[simp] theorem emit_debugActive (v : Word) (s : State) : (emit v s).debugActive = s.debugActive := rfl
@[simp] theorem emit_input (v : Word) (s : State) : (emit v s).input = s.input := rfl
@[simp] theorem emit_output (v : Word) (s : State) : (emit v s).output = s.output ++ [v] := rfl
@[simp] theorem emit_diags (v : Word) (s : State) : (emit v s).diags = s.diags := rfl
@[simp] theorem emit_wait (v : Word) (s : State) : (emit v s).wait = s.wait := rfl
@[simp] theorem emit_confirms (v : Word) (s : State) : (emit v s).confirms = s.confirms := rfl
@[simp] theorem emit_pauses (v : Word) (s : State) : (emit v s).pauses = s.pauses := rfl

/-! ## diagnose -/

@[simp] theorem diagnose_cfg (k : DiagKind) (p : Word) (info : FaultInfo) (s : State) : (diagnose k p info s).cfg = s.cfg := rfl
@[simp] theorem diagnose_memLen (k : DiagKind) (p : Word) (info : FaultInfo) (s : State) : (diagnose k p info s).memLen = s.memLen := rfl
@[simp] theorem diagnose_regs (k : DiagKind) (p : Word) (info : FaultInfo) (s : State) : (diagnose k p info s).regs = s.regs := rfl
@[simp] theorem diagnose_pc (k : DiagKind) (p : Word) (info : FaultInfo) (s : State) : (diagnose k p info s).pc = s.pc := rfl
@[simp] theorem diagnose_stack (k : DiagKind) (p : Word) (info : FaultInfo) (s : State) : (diagnose k p info s).stack = s.stack := rfl
@[simp] theorem diagnose_mem (k : DiagKind) (p : Word) (info : FaultInfo) (s : State) : (diagnose k p info s).mem = s.mem := rfl
@[simp] theorem diagnose_status (k : DiagKind) (p : Word) (info : FaultInfo) (s : State) : (diagnose k p info s).status = s.status := rfl
@[simp] theorem diagnose_haltCause (k : DiagKind) (p : Word) (info : FaultInfo) (s : State) : (diagnose k p info s).haltCause = s.haltCause := rfl
@[simp] theorem diagnose_fault (k : DiagKind) (p : Word) (info : FaultInfo) (s : State) : (diagnose k p info s).fault = s.fault := rfl
@[simp] theorem diagnose_debugActive (k : DiagKind) (p : Word) (info : FaultInfo) (s : State) : (diagnose k p info s).debugActive = s.debugActive := rfl
@[simp] theorem diagnose_input (k : DiagKind) (p : Word) (info : FaultInfo) (s : State) : (diagnose k p info s).input = s.input := rfl
@[simp] theorem diagnose_output (k : DiagKind) (p : Word) (info : FaultInfo) (s : State) : (diagnose k p info s).output = s.output := rfl
@[simp] theorem diagnose_diags (k : DiagKind) (p : Word) (info : FaultInfo) (s : State) : (diagnose k p info s).diags = s.diags ++ [⟨k, p, info⟩] := rfl
@[simp] theorem diagnose_wait (k : DiagKind) (p : Word) (info : FaultInfo) (s : State) : (diagnose k p info s).wait = s.wait := rfl
@[simp] theorem diagnose_confirms (k : DiagKind) (p : Word) (info : FaultInfo) (s : State) : (diagnose k p info s).confirms = s.confirms := rfl
@[simp] theorem diagnose_pauses (k : DiagKind) (p : Word) (info : FaultInfo) (s : State) : (diagnose k p info s).pauses = s.pauses := rfl

/-! ## haltWith -/

@[simp] theorem haltWith_cfg (c : HaltCause) (s : State) : (haltWith c s).cfg = s.cfg := rfl
@[simp] theorem haltWith_memLen (c : HaltCause) (s : State) : (haltWith c s).memLen = s.memLen := rfl
@[simp] theorem haltWith_regs (c : HaltCause) (s : State) : (haltWith c s).regs = s.regs := rfl
@[simp] theorem haltWith_pc (c : HaltCause) (s : State) : (haltWith c s).pc = s.pc := rfl
@[simp] theorem haltWith_stack (c : HaltCause) (s : State) : (haltWith c s).stack = s.stack := rfl
@[simp] theorem haltWith_mem (c : HaltCause) (s : State) : (haltWith c s).mem = s.mem := rfl
@[simp] theorem haltWith_status (c : HaltCause) (s : State) : (haltWith c s).status = .halted := rfl
@[simp] theorem haltWith_haltCause (c : HaltCause) (s : State) : (haltWith c s).haltCause = c := rfl
@[simp] theorem haltWith_fault (c : HaltCause) (s : State) : (haltWith c s).fault = s.fault := rfl
@[simp] theorem haltWith_debugActive (c : HaltCause) (s : State) : (haltWith c s).debugActive = s.debugActive := rfl
@[simp] theorem haltWith_input (c : HaltCause) (s : State) : (haltWith c s).input = s.input := rfl
@[simp] theorem haltWith_output (c : HaltCause) (s : State) : (haltWith c s).output = s.output := rfl
@[simp] theorem haltWith_diags (c : HaltCause) (s : State) : (haltWith c s).diags = s.diags := rfl
@[simp] theorem haltWith_wait (c : HaltCause) (s : State) : (haltWith c s).wait = s.wait := rfl
@[simp] theorem haltWith_confirms (c : HaltCause) (s : State) : (haltWith c s).confirms = s.confirms := rfl
@[simp] theorem haltWith_pauses (c : HaltCause) (s : State) : (haltWith c s).pauses = s.pauses := rfl

/-! ## report -/

@[simp] theorem report_cfg (k : FaultKind) (p : Word) (info : FaultInfo) (s : State) : (report k p info s).cfg = s.cfg := rfl
@[simp] theorem report_memLen (k : FaultKind) (p : Word) (info : FaultInfo) (s : State) : (report k p info s).memLen = s.memLen := rfl
@[simp] theorem report_regs (k : FaultKind) (p : Word) (info : FaultInfo) (s : State) : (report k p info s).regs = s.regs := rfl
@[simp] theorem report_pc (k : FaultKind) (p : Word) (info : FaultInfo) (s : State) : (report k p info s).pc = s.pc := rfl
@[simp] theorem report_stack (k : FaultKind) (p : Word) (info : FaultInfo) (s : State) : (report k p info s).stack = s.stack := rfl
@[simp] theorem report_mem (k : FaultKind) (p : Word) (info : FaultInfo) (s : State) : (report k p info s).mem = s.mem := rfl
@[simp] theorem report_status (k : FaultKind) (p : Word) (info : FaultInfo) (s : State) : (report k p info s).status = s.status := rfl
@[simp] theorem report_haltCause (k : FaultKind) (p : Word) (info : FaultInfo) (s : State) : (report k p info s).haltCause = s.haltCause := rfl
@[simp] theorem report_fault (k : FaultKind) (p : Word) (info : FaultInfo) (s : State) : (report k p info s).fault = some (s.fault.getD ⟨k, p, info⟩) := by
  cases h : s.fault <;> simp [report, h]
@[simp] theorem report_debugActive (k : FaultKind) (p : Word) (info : FaultInfo) (s : State) : (report k p info s).debugActive = s.debugActive := rfl
@[simp] theorem report_input (k : FaultKind) (p : Word) (info : FaultInfo) (s : State) : (report k p info s).input = s.input := rfl
@[simp] theorem report_output (k : FaultKind) (p : Word) (info : FaultInfo) (s : State) : (report k p info s).output = s.output := rfl
@[simp] theorem report_diags (k : FaultKind) (p : Word) (info : FaultInfo) (s : State) : (report k p info s).diags = s.diags ++ [⟨.fault k, p, info⟩] := rfl
@[simp] theorem report_wait (k : FaultKind) (p : Word) (info : FaultInfo) (s : State) : (report k p info s).wait = s.wait := rfl
@[simp] theorem report_confirms (k : FaultKind) (p : Word) (info : FaultInfo) (s : State) : (report k p info s).confirms = s.confirms := rfl
@[simp] theorem report_pauses (k : FaultKind) (p : Word) (info : FaultInfo) (s : State) : (report k p info s).pauses = s.pauses := rfl

/-! ## raise -/

@[simp] theorem raise_cfg (k : FaultKind) (p : Word) (info : FaultInfo) (s : State) : (raise k p info s).cfg = s.cfg := rfl
@[simp] theorem raise_memLen (k : FaultKind) (p : Word) (info : FaultInfo) (s : State) : (raise k p info s).memLen = s.memLen := rfl
@[simp] theorem raise_regs (k : FaultKind) (p : Word) (info : FaultInfo) (s : State) : (raise k p info s).regs = s.regs := rfl
@[simp] theorem raise_pc (k : FaultKind) (p : Word) (info : FaultInfo) (s : State) : (raise k p info s).pc = s.pc := rfl
@[simp] theorem raise_stack (k : FaultKind) (p : Word) (info : FaultInfo) (s : State) : (raise k p info s).stack = s.stack := rfl
@[simp] theorem raise_mem (k : FaultKind) (p : Word) (info : FaultInfo) (s : State) : (raise k p info s).mem = s.mem := rfl
@[simp] theorem raise_status (k : FaultKind) (p : Word) (info : FaultInfo) (s : State) : (raise k p info s).status = .halted := rfl
@[simp] theorem raise_haltCause (k : FaultKind) (p : Word) (info : FaultInfo) (s : State) : (raise k p info s).haltCause = .fault := rfl
@[simp] theorem raise_fault (k : FaultKind) (p : Word) (info : FaultInfo) (s : State) : (raise k p info s).fault = some (s.fault.getD ⟨k, p, info⟩) := by
  cases h : s.fault <;> simp [raise, report, haltWith, h]
@[simp] theorem raise_debugActive (k : FaultKind) (p : Word) (info : FaultInfo) (s : State) : (raise k p info s).debugActive = s.debugActive := rfl
@[simp] theorem raise_input (k : FaultKind) (p : Word) (info : FaultInfo) (s : State) : (raise k p info s).input = s.input := rfl
@[simp] theorem raise_output (k : FaultKind) (p : Word) (info : FaultInfo) (s : State) : (raise k p info s).output = s.output := rfl
@[simp] theorem raise_diags (k : FaultKind) (p : Word) (info : FaultInfo) (s : State) : (raise k p info s).diags = s.diags ++ [⟨.fault k, p, info⟩] := rfl
@[simp] theorem raise_wait (k : FaultKind) (p : Word) (info : FaultInfo) (s : State) : (raise k p info s).wait = s.wait := rfl
@[simp] theorem raise_confirms (k : FaultKind) (p : Word) (info : FaultInfo) (s : State) : (raise k p info s).confirms = s.confirms := rfl
@[simp] theorem raise_pauses (k : FaultKind) (p : Word) (info : FaultInfo) (s : State) : (raise k p info s).pauses = s.pauses := rfl

/-! ## advance -/

@[simp] theorem advance_cfg (i : Instr) (s : State) : (advance i s).cfg = s.cfg := rfl
@[simp] theorem advance_memLen (i : Instr) (s : State) : (advance i s).memLen = s.memLen := rfl
@[simp] theorem advance_regs (i : Instr) (s : State) : (advance i s).regs = s.regs := rfl
@[simp] theorem advance_pc (i : Instr) (s : State) : (advance i s).pc = s.pc + BitVec.ofNat 16 i.length := rfl
@[simp] theorem advance_stack (i : Instr) (s : State) : (advance i s).stack = s.stack := rfl
@[simp] theorem advance_mem (i : Instr) (s : State) : (advance i s).mem = s.mem := rfl
@[simp] theorem advance_status (i : Instr) (s : State) : (advance i s).status = s.status := rfl
@[simp] theorem advance_haltCause (i : Instr) (s : State) : (advance i s).haltCause = s.haltCause := rfl
@[simp] theorem advance_fault (i : Instr) (s : State) : (advance i s).fault = s.fault := rfl
@[simp] theorem advance_debugActive (i : Instr) (s : State) : (advance i s).debugActive = s.debugActive := rfl
@[simp] theorem advance_input (i : Instr) (s : State) : (advance i s).input = s.input := rfl
@[simp] theorem advance_output (i : Instr) (s : State) : (advance i s).output = s.output := rfl
@[simp] theorem advance_diags (i : Instr) (s : State) : (advance i s).diags = s.diags := rfl
@[simp] theorem advance_wait (i : Instr) (s : State) : (advance i s).wait = s.wait := rfl
@[simp] theorem advance_confirms (i : Instr) (s : State) : (advance i s).confirms = s.confirms := rfl
@[simp] theorem advance_pauses (i : Instr) (s : State) : (advance i s).pauses = s.pauses := rfl

/-! ## pause -/

@[simp] theorem pause_cfg (i : Instr) (p : Word) (s : State) : (pause i p s).cfg = s.cfg := rfl
@[simp] theorem pause_memLen (i : Instr) (p : Word) (s : State) : (pause i p s).memLen = s.memLen := rfl
@[simp] theorem pause_regs (i : Instr) (p : Word) (s : State) : (pause i p s).regs = s.regs := rfl
@[simp] theorem pause_pc (i : Instr) (p : Word) (s : State) : (pause i p s).pc = s.pc := rfl
@[simp] theorem pause_stack (i : Instr) (p : Word) (s : State) : (pause i p s).stack = s.stack := rfl
@[simp] theorem pause_mem (i : Instr) (p : Word) (s : State) : (pause i p s).mem = s.mem := rfl
@[simp] theorem pause_status (i : Instr) (p : Word) (s : State) : (pause i p s).status = s.status := rfl
@[simp] theorem pause_haltCause (i : Instr) (p : Word) (s : State) : (pause i p s).haltCause = s.haltCause := rfl
@[simp] theorem pause_fault (i : Instr) (p : Word) (s : State) : (pause i p s).fault = s.fault := rfl
@[simp] theorem pause_debugActive (i : Instr) (p : Word) (s : State) : (pause i p s).debugActive = true := rfl
@[simp] theorem pause_input (i : Instr) (p : Word) (s : State) : (pause i p s).input = s.input := rfl
@[simp] theorem pause_output (i : Instr) (p : Word) (s : State) : (pause i p s).output = s.output := rfl
@[simp] theorem pause_diags (i : Instr) (p : Word) (s : State) : (pause i p s).diags = s.diags := rfl
@[simp] theorem pause_wait (i : Instr) (p : Word) (s : State) : (pause i p s).wait = .confirm i := rfl
@[simp] theorem pause_confirms (i : Instr) (p : Word) (s : State) : (pause i p s).confirms = s.confirms := rfl
@[simp] theorem pause_pauses (i : Instr) (p : Word) (s : State) : (pause i p s).pauses = s.pauses ++ [snapshot i p s] := rfl

/-! ## supply -/

@[simp] theorem supply_cfg (cs : List Byte) (s : State) : (State.supply cs s).cfg = s.cfg := rfl
@[simp] theorem supply_memLen (cs : List Byte) (s : State) : (State.supply cs s).memLen = s.memLen := rfl
@[simp] theorem supply_regs (cs : List Byte) (s : State) : (State.supply cs s).regs = s.regs := rfl
@[simp] theorem supply_pc (cs : List Byte) (s : State) : (State.supply cs s).pc = s.pc := rfl
@[simp] theorem supply_stack (cs : List Byte) (s : State) : (State.supply cs s).stack = s.stack := rfl
@[simp] theorem supply_mem (cs : List Byte) (s : State) : (State.supply cs s).mem = s.mem := rfl
@[simp] theorem supply_status (cs : List Byte) (s : State) : (State.supply cs s).status = s.status := rfl
@[simp] theorem supply_haltCause (cs : List Byte) (s : State) : (State.supply cs s).haltCause = s.haltCause := rfl
@[simp] theorem supply_fault (cs : List Byte) (s : State) : (State.supply cs s).fault = s.fault := rfl
@[simp] theorem supply_debugActive (cs : List Byte) (s : State) : (State.supply cs s).debugActive = s.debugActive := rfl
@[simp] theorem supply_input (cs : List Byte) (s : State) : (State.supply cs s).input = s.input ++ cs := rfl
@[simp] theorem supply_output (cs : List Byte) (s : State) : (State.supply cs s).output = s.output := rfl
@[simp] theorem supply_diags (cs : List Byte) (s : State) : (State.supply cs s).diags = s.diags := rfl
@[simp] theorem supply_wait (cs : List Byte) (s : State) : (State.supply cs s).wait = s.wait := rfl
@[simp] theorem supply_confirms (cs : List Byte) (s : State) : (State.supply cs s).confirms = s.confirms := rfl
@[simp] theorem supply_pauses (cs : List Byte) (s : State) : (State.supply cs s).pauses = s.pauses := rfl

/-! ## confirm -/

@[simp] theorem confirm_cfg (s : State) : (State.confirm s).cfg = s.cfg := rfl
@[simp] theorem confirm_memLen (s : State) : (State.confirm s).memLen = s.memLen := rfl
@[simp] theorem confirm_regs (s : State) : (State.confirm s).regs = s.regs := rfl
@[simp] theorem confirm_pc (s : State) : (State.confirm s).pc = s.pc := rfl
@[simp] theorem confirm_stack (s : State) : (State.confirm s).stack = s.stack := rfl
@[simp] theorem confirm_mem (s : State) : (State.confirm s).mem = s.mem := rfl
@[simp] theorem confirm_status (s : State) : (State.confirm s).status = s.status := rfl
@[simp] theorem confirm_haltCause (s : State) : (State.confirm s).haltCause = s.haltCause := rfl
@[simp] theorem confirm_fault (s : State) : (State.confirm s).fault = s.fault := rfl
@[simp] theorem confirm_debugActive (s : State) : (State.confirm s).debugActive = s.debugActive := rfl
@[simp] theorem confirm_input (s : State) : (State.confirm s).input = s.input := rfl
@[simp] theorem confirm_output (s : State) : (State.confirm s).output = s.output := rfl
@[simp] theorem confirm_diags (s : State) : (State.confirm s).diags = s.diags := rfl
@[simp] theorem confirm_wait (s : State) : (State.confirm s).wait = s.wait := rfl
@[simp] theorem confirm_confirms (s : State) : (State.confirm s).confirms = s.confirms + 1 := rfl
@[simp] theorem confirm_pauses (s : State) : (State.confirm s).pauses = s.pauses := rfl

/-! ## Reading registers -/

@[simp] theorem readReg_writeReg_self (i : RegIdx) (v : Word) (s : State) : readReg i (writeReg i v s) = v := by
  simp [readReg, Vector.get_eq_getElem]

theorem readReg_writeReg_ne {i j : RegIdx} (h : j ≠ i) (v : Word) (s : State) :
    readReg j (writeReg i v s) = readReg j s := by
  have : i.val ≠ j.val := fun e => h (Fin.ext e.symm)
  simp [readReg, Vector.get_eq_getElem, Vector.getElem_set_ne _ _ this]

end Sys2Proof.Machine
end

