-- ==== Sys2Proof/Laws/Operands.lean ====
section
/-! SUPPORT. What each shared operation can answer: the ends of an instruction, the resolver, the memory, stack and transfer
primitives. Later proofs cite these and do not unfold the operations. -/

namespace Sys2Proof.Machine

/-! ## The end of an instruction -/

@[simp] theorem attempt_ok (len : Nat) (s t : State) : attempt len s (.ok t) = .next t := rfl

@[simp] theorem attempt_error (len : Nat) (s : State) (f : Trap) :
    attempt len s (.error f) = .next (raise f.kind (opcodeAddr len s) f.info s) := rfl

/-- An instruction answers a next state: its effect, or the state before it with a fault taken. -/
theorem attempt_cases {len : Nat} {s t : State} {e : Except Trap State} (h : attempt len s e = .next t) :
    e = .ok t ∨ ∃ f, e = .error f ∧ t = raise f.kind (opcodeAddr len s) f.info s := by
  cases e with
  | ok u => exact .inl (by cases h; rfl)
  | error f => exact .inr ⟨f, rfl, by cases h; rfl⟩

theorem attempt_answers (len : Nat) (s : State) (e : Except Trap State) : ∃ t, attempt len s e = .next t := by
  cases e <;> exact ⟨_, rfl⟩

/-- With `pc` past an instruction at `p`, its opcode address is `p`. -/
theorem opcodeAddr_of_pc {len : Nat} {s : State} {p : Word} (h : s.pc = p + BitVec.ofNat 16 len) : opcodeAddr len s = p := by
  rw [opcodeAddr, h, BitVec.add_sub_cancel]

/-! ## Operands -/

theorem source_eq_ok {k : Nat} {o : Operand} {s : State} {v : Word} : source k o s = .ok v ↔ resolve s o = some v := by
  cases o <;> simp [source, resolve]

theorem source_error {k : Nat} {o : Operand} {s : State} (h : Role.src.admits o = false) :
    source k o s = .error ⟨.invalidOperand, .operand k o.toWord⟩ := by
  cases o <;> simp_all [source, resolve, Role.admits]

theorem source_of_admits {k : Nat} {o : Operand} {s : State} (h : Role.src.admits o = true) :
    ∃ v, resolve s o = some v ∧ source k o s = .ok v := by
  cases o <;> simp_all [source, resolve, Role.admits]

theorem destination_eq_ok {k : Nat} {o : Operand} {d : RegIdx} : destination k o = .ok d ↔ regidx o = some d := by
  cases o <;> simp [destination, regidx]

theorem destination_error {k : Nat} {o : Operand} (h : Role.dst.admits o = false) :
    destination k o = .error ⟨if o.isKind && decide (o.toWord.toNat < 32768) then .literalDestination else .invalidOperand,
      .operand k o.toWord⟩ := by
  cases o with
  | lit v =>
    have : (Operand.lit v).toWord.toNat < 32768 := by
      have := v.isLt
      rw [Operand.toWord, BitVec.toNat_setWidth]
      exact Nat.lt_of_le_of_lt (Nat.mod_le _ _) this
    simp [destination, Operand.isKind, this]
  | reg i => simp [Role.admits] at h
  | invalid w =>
    by_cases hw : 32775 < w.toNat
    · have : ¬ w.toNat < 32768 := by omega
      simp [destination, Operand.isKind, Operand.toWord, this]
    · simp [destination, Operand.isKind, Operand.toWord, hw]

theorem regidx_eq_some {o : Operand} {d : RegIdx} : regidx o = some d ↔ o = .reg d := by
  cases o <;> simp [regidx]

/-! ## The five shapes of instruction, with operands that fit -/

section Fit
variable {len : Nat} {a b c : Operand} {s : State} {d : RegIdx} {u v : Word}

theorem withSrc_fit (f : Word → Except Trap State) (ha : resolve s a = some u) :
    withSrc len a s f = attempt len s (f u) := by
  rw [withSrc, source_eq_ok.2 ha]; rfl

theorem withSrcSrc_fit (f : Word → Word → Except Trap State) (ha : resolve s a = some u) (hb : resolve s b = some v) :
    withSrcSrc len a b s f = attempt len s (f u v) := by
  rw [withSrcSrc, source_eq_ok.2 ha, source_eq_ok.2 hb]; rfl

theorem withDst_fit (f : RegIdx → Except Trap State) (ha : regidx a = some d) :
    withDst len a s f = attempt len s (f d) := by
  rw [withDst, destination_eq_ok.2 ha]; rfl

theorem withDstSrc_fit (f : RegIdx → Word → Except Trap State) (ha : regidx a = some d) (hb : resolve s b = some u) :
    withDstSrc len a b s f = attempt len s (f d u) := by
  rw [withDstSrc, destination_eq_ok.2 ha, source_eq_ok.2 hb]; rfl

theorem withDstSrcSrc_fit (f : RegIdx → Word → Word → Except Trap State) (ha : regidx a = some d)
    (hb : resolve s b = some u) (hc : resolve s c = some v) :
    withDstSrcSrc len a b c s f = attempt len s (f d u v) := by
  rw [withDstSrcSrc, destination_eq_ok.2 ha, source_eq_ok.2 hb, source_eq_ok.2 hc]; rfl

end Fit

/-! ## The five shapes, whatever the operands: a fault, or operands that fit -/

/-- The state before an instruction of `len` words with some fault of it taken. -/
def Faulted (len : Nat) (s t : State) : Prop := ∃ k info, t = raise k (opcodeAddr len s) info s

section Shapes
variable {len : Nat} {a b c : Operand} {s t : State}

theorem faulted_of_error {f : Trap} (h : attempt len s (.error f) = .next t) : Faulted len s t :=
  ⟨f.kind, f.info, by cases h; rfl⟩

theorem faulted_or_ok {e : Except Trap State} (h : attempt len s e = .next t) : Faulted len s t ∨ e = .ok t := by
  cases e with
  | ok u => exact .inr (by cases h; rfl)
  | error f => exact .inl (faulted_of_error h)

theorem withSrc_cases {f : Word → Except Trap State} (h : withSrc len a s f = .next t) :
    Faulted len s t ∨ ∃ u, resolve s a = some u ∧ f u = .ok t := by
  cases ha : resolve s a with
  | none => exact .inl (by rw [withSrc, source, ha] at h; exact faulted_of_error h)
  | some u => exact (faulted_or_ok (withSrc_fit f ha ▸ h)).imp id fun e => ⟨u, rfl, e⟩

theorem withSrcSrc_cases {f : Word → Word → Except Trap State} (h : withSrcSrc len a b s f = .next t) :
    Faulted len s t ∨ ∃ u v, resolve s a = some u ∧ resolve s b = some v ∧ f u v = .ok t := by
  cases ha : resolve s a with
  | none => exact .inl (by rw [withSrcSrc, source, ha] at h; exact faulted_of_error h)
  | some u =>
    cases hb : resolve s b with
    | none => exact .inl (by rw [withSrcSrc, source, ha, source, hb] at h; exact faulted_of_error h)
    | some v => exact (faulted_or_ok (withSrcSrc_fit f ha hb ▸ h)).imp id fun e => ⟨u, v, rfl, rfl, e⟩

theorem withDst_cases {f : RegIdx → Except Trap State} (h : withDst len a s f = .next t) :
    Faulted len s t ∨ ∃ d, a = .reg d ∧ f d = .ok t := by
  cases a with
  | reg d => exact (faulted_or_ok (withDst_fit f (regidx_eq_some.2 rfl) ▸ h)).imp id fun e => ⟨d, rfl, e⟩
  | lit v => exact .inl (faulted_of_error h)
  | invalid w => exact .inl (faulted_of_error h)

theorem withDstSrc_cases {f : RegIdx → Word → Except Trap State} (h : withDstSrc len a b s f = .next t) :
    Faulted len s t ∨ ∃ d u, a = .reg d ∧ resolve s b = some u ∧ f d u = .ok t := by
  cases a with
  | reg d =>
    cases hb : resolve s b with
    | none => exact .inl (by rw [withDstSrc, destination, source, hb] at h; exact faulted_of_error h)
    | some u => exact (faulted_or_ok (withDstSrc_fit f (regidx_eq_some.2 rfl) hb ▸ h)).imp id fun e => ⟨d, u, rfl, rfl, e⟩
  | lit v => exact .inl (faulted_of_error h)
  | invalid w => exact .inl (faulted_of_error h)

theorem withDstSrcSrc_cases {f : RegIdx → Word → Word → Except Trap State} (h : withDstSrcSrc len a b c s f = .next t) :
    Faulted len s t ∨ ∃ d u v, a = .reg d ∧ resolve s b = some u ∧ resolve s c = some v ∧ f d u v = .ok t := by
  cases a with
  | reg d =>
    cases hb : resolve s b with
    | none => exact .inl (by rw [withDstSrcSrc, destination, source, hb] at h; exact faulted_of_error h)
    | some u =>
      cases hc : resolve s c with
      | none => exact .inl (by rw [withDstSrcSrc, destination, source, hb, source, hc] at h; exact faulted_of_error h)
      | some v => exact (faulted_or_ok (withDstSrcSrc_fit f (regidx_eq_some.2 rfl) hb hc ▸ h)).imp id fun e => ⟨d, u, v, rfl, rfl, rfl, e⟩
  | lit v => exact .inl (faulted_of_error h)
  | invalid w => exact .inl (faulted_of_error h)

end Shapes

/-! ## Memory, stack, transfer -/

theorem inImage_iff {a : Word} {s : State} : inImage a s = true ↔ a.toNat < s.memLen.val := by
  simp [inImage]

theorem memRead_cases {a v : Word} {s : State} :
    memRead a s = .ok v ↔ a.toNat < s.memLen.val ∧ v = Memory.readWord s.mem a.toNat := by
  unfold memRead inImage
  split <;> simp_all [eq_comm]

theorem memWrite_cases {a v : Word} {s t : State} :
    memWrite a v s = .ok t ↔ a.toNat < s.memLen.val ∧ t = { s with mem := Memory.writeWord s.mem a.toNat v } := by
  unfold memWrite inImage
  split <;> simp_all [eq_comm]

theorem transfer_cases {a : Word} {s t : State} :
    transfer a s = .ok t ↔ a.toNat < s.memLen.val ∧ t = { s with pc := a } := by
  unfold transfer inImage
  split <;> simp_all [eq_comm]

theorem stackFull_iff {s : State} : stackFull s = true ↔ s.cfg.stackMax = some s.stack.length := by
  unfold stackFull
  cases s.cfg.stackMax with
  | none => simp
  | some m => simp [eq_comm (a := m)]

theorem pushWord_cases {v : Word} {s t : State} :
    pushWord v s = .ok t ↔ s.cfg.stackMax ≠ some s.stack.length ∧ t = { s with stack := v :: s.stack } := by
  have := stackFull_iff (s := s)
  unfold pushWord
  by_cases h : stackFull s = true
  · simp [h, this.1 h]
  · simp [h, mt this.2 h, eq_comm (a := t)]

/-- `Recv` takes the next character, or holds the machine. -/
theorem receive_cases (d : RegIdx) (s : State) :
    (s.input = [] ∧ receive d s = { s with wait := .recv d }) ∨
    ∃ c cs, s.input = c :: cs ∧ receive d s = { writeReg d (c.setWidth 16) s with input := cs, wait := .none } := by
  cases h : s.input with
  | nil => exact .inl ⟨rfl, by simp [receive, h]⟩
  | cons c cs => exact .inr ⟨c, cs, rfl, by simp [receive, h]⟩

end Sys2Proof.Machine
end

