-- ==== Sys2Proof/Laws/Exec.lean ====
section
/-! SUPPORT. Everything an instruction can do, said once: the inversion lemma of `exec`. -/

namespace Sys2Proof.Machine

/-- The ways an instruction can end, by the state it leaves. -/
inductive Effect (i : Instr) (s : State) : State → Prop where
  /-- it met a fault (60_exceptions.md R109) -/
  | faulted {t : State} (h : Faulted i.length s t) : Effect i s t
  /-- `NOOP`, an untaken jump, a suppressed `OUT` -/
  | nothing (h : i.opcode ∈ [Opcode.noop, .jt, .jf, .out]) (hd : i.opcode = .out → s.debugActive = true) : Effect i s s
  | halted (h : i.opcode = .halt) : Effect i s (haltWith .haltInstr s)
  /-- `RET` with an empty stack (46_call_ret.md R94) -/
  | retHalted (h : i.opcode = .ret) (hs : s.stack = []) :
      Effect i s (haltWith .retEmptyStack (diagnose .retEmptyStack (opcodeAddr 1 s) (.word 0) s))
  /-- a register written, and nothing else -/
  | wrote (d : RegIdx) (v : Word) (h : i.operands.head? = some (.dst, .reg d)) : Effect i s (writeReg d v s)
  | pushed (v : Word) (h : i.opcode = .push) (hm : s.cfg.stackMax ≠ some s.stack.length) :
      Effect i s { s with stack := v :: s.stack }
  | popped (d : RegIdx) (v : Word) (rest : List Word) (h : i = .pop (.reg d)) (hs : s.stack = v :: rest) :
      Effect i s { writeReg d v s with stack := rest }
  | jumped (t : Word) (h : i.opcode ∈ [Opcode.jmp, .jt, .jf]) (ht : t.toNat < s.memLen.val) : Effect i s { s with pc := t }
  | stored (a v : Word) (h : i.opcode = .wmem) (ha : a.toNat < s.memLen.val) :
      Effect i s { s with mem := Memory.writeWord s.mem a.toNat v }
  | called (t : Word) (h : i.opcode = .call) (ht : t.toNat < s.memLen.val) (hm : s.cfg.stackMax ≠ some s.stack.length) :
      Effect i s { s with stack := s.pc :: s.stack, pc := t }
  | returned (t : Word) (rest : List Word) (h : i.opcode = .ret) (hs : s.stack = t :: rest)
      (ht : t.toNat < s.memLen.val) : Effect i s { s with pc := t, stack := rest }
  | emitted (v : Word) (h : i.opcode = .out) (hd : s.debugActive = false) : Effect i s (emit v s)
  | received (d : RegIdx) (h : i = .inp (.reg d)) : Effect i s (receive d s)

/-- Every next state of an instruction is one of its effects. -/
theorem exec_effect {i : Instr} {s t : State} (h : exec i s = .next t) : Effect i s t := by
  cases i with
  | halt => cases h; exact .halted rfl
  | noop => cases h; exact .nothing (by simp [Instr.opcode]) (by simp [Instr.opcode])
  | set a b =>
    rcases withDstSrc_cases h with hf | ⟨d, v, rfl, -, e⟩
    · exact .faulted hf
    · cases e; exact .wrote d _ rfl
  | push a =>
    rcases withSrc_cases h with hf | ⟨v, -, e⟩
    · exact .faulted hf
    · obtain ⟨hm, rfl⟩ := pushWord_cases.1 e
      exact .pushed v rfl hm
  | pop a =>
    rcases withDst_cases h with hf | ⟨d, rfl, e⟩
    · exact .faulted hf
    · cases hs : s.stack with
      | nil => simp [hs] at e
      | cons v rest =>
        simp only [hs] at e
        cases e
        exact .popped d v rest rfl hs
  | eq a b c =>
    rcases withDstSrcSrc_cases h with hf | ⟨d, u, v, rfl, -, -, e⟩
    · exact .faulted hf
    · cases e; exact .wrote d _ rfl
  | gt a b c =>
    rcases withDstSrcSrc_cases h with hf | ⟨d, u, v, rfl, -, -, e⟩
    · exact .faulted hf
    · cases e; exact .wrote d _ rfl
  | jmp a =>
    rcases withSrc_cases h with hf | ⟨t', -, e⟩
    · exact .faulted hf
    · obtain ⟨ht, rfl⟩ := transfer_cases.1 e
      exact .jumped t' (by simp [Instr.opcode]) ht
  | jt a b =>
    rcases withSrcSrc_cases h with hf | ⟨u, t', -, -, e⟩
    · exact .faulted hf
    · split at e
      · obtain ⟨ht, rfl⟩ := transfer_cases.1 e
        exact .jumped t' (by simp [Instr.opcode]) ht
      · cases e; exact .nothing (by simp [Instr.opcode]) (by simp [Instr.opcode])
  | jf a b =>
    rcases withSrcSrc_cases h with hf | ⟨u, t', -, -, e⟩
    · exact .faulted hf
    · split at e
      · cases e; exact .nothing (by simp [Instr.opcode]) (by simp [Instr.opcode])
      · obtain ⟨ht, rfl⟩ := transfer_cases.1 e
        exact .jumped t' (by simp [Instr.opcode]) ht
  | add a b c =>
    rcases withDstSrcSrc_cases h with hf | ⟨d, u, v, rfl, -, -, e⟩
    · exact .faulted hf
    · cases e; exact .wrote d _ rfl
  | mult a b c =>
    rcases withDstSrcSrc_cases h with hf | ⟨d, u, v, rfl, -, -, e⟩
    · exact .faulted hf
    · cases e; exact .wrote d _ rfl
  | mod a b c =>
    rcases withDstSrcSrc_cases h with hf | ⟨d, u, v, rfl, -, -, e⟩
    · exact .faulted hf
    · split at e
      · cases e
      · cases e; exact .wrote d _ rfl
  | and a b c =>
    rcases withDstSrcSrc_cases h with hf | ⟨d, u, v, rfl, -, -, e⟩
    · exact .faulted hf
    · cases e; exact .wrote d _ rfl
  | or a b c =>
    rcases withDstSrcSrc_cases h with hf | ⟨d, u, v, rfl, -, -, e⟩
    · exact .faulted hf
    · cases e; exact .wrote d _ rfl
  | not a b =>
    rcases withDstSrc_cases h with hf | ⟨d, v, rfl, -, e⟩
    · exact .faulted hf
    · cases e; exact .wrote d _ rfl
  | rmem a b =>
    rcases withDstSrc_cases h with hf | ⟨d, addr, rfl, -, e⟩
    · exact .faulted hf
    · cases hr : memRead addr s with
      | error f => rw [hr] at e; cases e
      | ok v => rw [hr] at e; cases e; exact .wrote d v rfl
  | wmem a b =>
    rcases withSrcSrc_cases h with hf | ⟨addr, v, -, -, e⟩
    · exact .faulted hf
    · obtain ⟨ha, rfl⟩ := memWrite_cases.1 e
      exact .stored addr v rfl ha
  | call a =>
    rcases withSrc_cases h with hf | ⟨t', -, e⟩
    · exact .faulted hf
    · split at e
      · cases hp : pushWord s.pc s with
        | error f => rw [hp] at e; cases e
        | ok s' =>
          rw [hp] at e
          obtain ⟨hm, rfl⟩ := pushWord_cases.1 hp
          obtain ⟨ht, rfl⟩ := transfer_cases.1 e
          exact .called t' rfl ht hm
      · cases e
  | ret =>
    rcases faulted_or_ok h with hf | e
    · exact .faulted hf
    · cases hs : s.stack with
      | nil => simp only [hs] at e; cases e; exact .retHalted rfl hs
      | cons t' rest =>
        simp only [hs] at e
        cases ht : transfer t' s with
        | error f => rw [ht] at e; cases e
        | ok s' =>
          rw [ht] at e
          obtain ⟨hl, rfl⟩ := transfer_cases.1 ht
          cases e
          exact .returned t' rest rfl hs hl
  | out a =>
    rcases withSrc_cases h with hf | ⟨v, -, e⟩
    · exact .faulted hf
    · cases hd : s.debugActive with
      | true => simp only [hd] at e; cases e; exact .nothing (by simp [Instr.opcode]) fun _ => hd
      | false => simp only [hd] at e; cases e; exact .emitted v rfl hd
  | inp a =>
    rcases withDst_cases h with hf | ⟨d, rfl, e⟩
    · exact .faulted hf
    · cases e; exact .received d rfl

end Sys2Proof.Machine
end

