-- ==== Sys2Proof/Laws/Decode.lean ====
section
/-! SUPPORT. The small laws of operand words, opcodes and lengths that decoding and encoding rest on. -/

namespace Sys2Proof

/-! ## Operand words -/

theorem Operand.ofWord_lit {w : Word} (h : w.toNat < 32768) : Operand.ofWord w = .lit (w.setWidth 15) := by
  simp [Operand.ofWord, h]

theorem Operand.ofWord_reg {w : Word} (i : RegIdx) (h : w.toNat = 32768 + i.val) : Operand.ofWord w = .reg i := by
  have hi := i.isLt
  have h1 : ¬ w.toNat < 32768 := by omega
  have h2 : w.toNat - 32768 < 8 := by omega
  rw [Operand.ofWord, if_neg h1, dif_pos h2]
  exact congrArg Operand.reg (Fin.ext (show w.toNat - 32768 = i.val by omega))

theorem Operand.ofWord_invalid {w : Word} (h : 32775 < w.toNat) : Operand.ofWord w = .invalid w := by
  have h1 : ¬ w.toNat < 32768 := by omega
  have h2 : ¬ w.toNat - 32768 < 8 := by omega
  rw [Operand.ofWord, if_neg h1, dif_neg h2]

/-- An operand that is the kind of some word is the kind of its own word. -/
theorem Operand.ofWord_toWord {o : Operand} (h : o.isKind = true) : Operand.ofWord o.toWord = o := by
  cases o with
  | lit v =>
    have hv := v.isLt
    have hw : (v.setWidth 16 : Word).toNat = v.toNat := by
      rw [BitVec.toNat_setWidth]; exact Nat.mod_eq_of_lt (by omega)
    rw [Operand.toWord, Operand.ofWord_lit (by omega)]
    congr 1
    apply BitVec.eq_of_toNat_eq
    rw [BitVec.toNat_setWidth, hw]
    exact Nat.mod_eq_of_lt hv
  | reg i =>
    have hi := i.isLt
    exact Operand.ofWord_reg i (by rw [Operand.toWord, BitVec.toNat_ofNat]; exact Nat.mod_eq_of_lt (by omega))
  | invalid w => exact Operand.ofWord_invalid (w := w) (by simpa [Operand.isKind] using h)

/-- Every word is the word of its kind. -/
theorem Operand.toWord_ofWord (w : Word) : (Operand.ofWord w).toWord = w := by
  have hw := w.isLt
  apply BitVec.eq_of_toNat_eq
  rcases Nat.lt_or_ge w.toNat 32768 with h | h
  · rw [Operand.ofWord_lit h, Operand.toWord, BitVec.toNat_setWidth, BitVec.toNat_setWidth]
    rw [Nat.mod_eq_of_lt (a := w.toNat) (by omega), Nat.mod_eq_of_lt (by omega)]
  · rcases Nat.lt_or_ge w.toNat 32776 with h' | h'
    · rw [Operand.ofWord_reg ⟨w.toNat - 32768, by omega⟩ (by simp; omega), Operand.toWord, BitVec.toNat_ofNat]
      rw [Nat.mod_eq_of_lt (by simp; omega)]
      simp; omega
    · rw [Operand.ofWord_invalid (by omega), Operand.toWord]

theorem Operand.isKind_ofWord (w : Word) : (Operand.ofWord w).isKind = true := by
  rcases Nat.lt_or_ge w.toNat 32768 with h | h
  · simp [Operand.ofWord_lit h, Operand.isKind]
  · rcases Nat.lt_or_ge w.toNat 32776 with h' | h'
    · have hr : w.toNat = 32768 + (⟨w.toNat - 32768, by omega⟩ : RegIdx).val := by simp; omega
      rw [Operand.ofWord_reg _ hr, Operand.isKind]
    · simp [Operand.ofWord_invalid (w := w) (by omega), Operand.isKind]
      omega

/-! ## Opcodes -/

theorem Opcode.ofWord_toWord (o : Opcode) : Opcode.ofWord o.toWord = some o := by
  cases o <;> rfl

theorem Opcode.toWord_of_ofWord {w : Word} {o : Opcode} (h : Opcode.ofWord w = some o) : o.toWord = w := by
  apply BitVec.eq_of_toNat_eq
  unfold Opcode.ofWord at h
  split at h <;> first | (cases h; simp_all [Opcode.toWord]) | cases h

/-- 30_encoding.md R47: an opcode word is one of 0 to 21. -/
theorem Opcode.ofWord_eq_none_iff (w : Word) : Opcode.ofWord w = none ↔ 22 ≤ w.toNat := by
  unfold Opcode.ofWord
  split <;> simp_all
  omega

theorem Opcode.opcode_instr (o : Opcode) (a b c : Operand) : (o.instr a b c).opcode = o := by
  cases o <;> rfl

/-! ## Lengths -/

theorem Instr.operands_length (i : Instr) : i.operands.length = i.opcode.nargs := by
  cases i <;> rfl

theorem encode_length (i : Instr) : (encode i).length = i.length := by
  simp [encode, Instr.length, Instr.operands_length, Nat.add_comm]

theorem Opcode.nargs_le (o : Opcode) : o.nargs ≤ 3 := by
  cases o <;> decide

theorem Instr.length_bounds (i : Instr) : 1 ≤ i.length ∧ i.length ≤ 4 := by
  have := i.opcode.nargs_le
  unfold Instr.length
  omega

/-! ## Bytes -/

theorem wordOfBytes_low_high (w : Word) : wordOfBytes (lowByte w) (highByte w) = w := by
  unfold wordOfBytes lowByte highByte
  ext i hi
  simp only [BitVec.getElem_append]
  split <;> simp [BitVec.getLsbD_eq_getElem, hi]
  rename_i h8
  have : 8 + (i - 8) = i := by omega
  simp [this, BitVec.getLsbD_eq_getElem, hi]

theorem wordsOfBytes_bytesOfWords (ws : List Word) (bs : List Byte) :
    wordsOfBytes (bytesOfWords ws ++ bs) = ws ++ wordsOfBytes bs := by
  induction ws with
  | nil => rfl
  | cons w ws ih =>
    simp only [bytesOfWords, List.flatMap_cons, List.cons_append, List.nil_append, wordsOfBytes, wordOfBytes_low_high]
    exact congrArg _ ih

end Sys2Proof
end

