-- ==== Sys2Proof/Laws/Memory.lean ====
section
/-! SUPPORT. Memory: every operation keeps the canonical form, a read sees the last write, other bytes are unchanged. -/

namespace Sys2Proof.Machine

/-! ## The canonical form -/

theorem Memory.wf_nil : Memory.wf [] := ⟨List.Pairwise.nil, by simp⟩

theorem Memory.wf_cons {k : Nat} {c : Byte} {m : Memory} :
    Memory.wf ((k, c) :: m) ↔ (∀ d ∈ m, k < d.1) ∧ c ≠ Memory.unlisted ∧ Memory.wf m := by
  simp only [Memory.wf, List.pairwise_cons, List.forall_mem_cons]
  tauto

/-- The addresses listed after a write are those listed before and the one written. -/
theorem Memory.mem_writeByte {m : Memory} {a : Nat} {b : Byte} {d : Host.Cell}
    (h : d ∈ Memory.writeByte m a b) : d ∈ m ∨ d.1 = a := by
  induction m with
  | nil => unfold Memory.writeByte at h; split at h <;> simp_all
  | cons e m ih =>
    obtain ⟨k, c⟩ := e
    unfold Memory.writeByte at h
    split_ifs at h <;> simp only [List.mem_cons] at h ⊢
    · exact .inl h
    · rcases h with rfl | h
      · exact .inr rfl
      · exact .inl h
    · exact .inl (.inr h)
    · rcases h with rfl | h
      · exact .inr rfl
      · exact .inl (.inr h)
    · rcases h with rfl | h
      · exact .inl (.inl rfl)
      · exact (ih h).imp .inr id

theorem Memory.wf_writeByte {m : Memory} (h : Memory.wf m) (a : Nat) (b : Byte) :
    Memory.wf (Memory.writeByte m a b) := by
  induction m with
  | nil =>
    unfold Memory.writeByte
    split
    · exact h
    · rename_i hb
      exact Memory.wf_cons.2 ⟨by simp, hb, h⟩
  | cons e m ih =>
    obtain ⟨k, c⟩ := e
    obtain ⟨hk, hc, hm⟩ := Memory.wf_cons.1 h
    unfold Memory.writeByte
    split_ifs with h1 h2 h3 h4
    · exact h
    · refine Memory.wf_cons.2 ⟨fun d hd => ?_, h2, h⟩
      rcases List.mem_cons.1 hd with rfl | hd
      · exact h1
      · exact h1.trans (hk d hd)
    · exact hm
    · exact Memory.wf_cons.2 ⟨fun d hd => h3 ▸ hk d hd, h4, hm⟩
    · refine Memory.wf_cons.2 ⟨fun d hd => ?_, hc, ih hm⟩
      rcases Memory.mem_writeByte hd with hd | hd <;> [exact hk d hd; omega]

theorem Memory.wf_writeWord {m : Memory} (h : Memory.wf m) (a : Nat) (v : Word) :
    Memory.wf (Memory.writeWord m a v) :=
  Memory.wf_writeByte (Memory.wf_writeByte h _ _) _ _

theorem Memory.wf_writeWords {m : Memory} (h : Memory.wf m) (a : Nat) (ws : List Word) :
    Memory.wf (Memory.writeWords m a ws) := by
  induction ws generalizing m a with
  | nil => exact h
  | cons w ws ih => exact ih (Memory.wf_writeWord h a w) (a + 1)

/-- Loaded bytes are listed at the file offsets they were loaded from. -/
theorem Memory.mem_ofBytes {k : Nat} {bs : List Byte} {d : Host.Cell} (h : d ∈ Memory.ofBytes k bs) :
    k ≤ d.1 ∧ d.1 < k + bs.length := by
  induction bs generalizing k with
  | nil => simp [Memory.ofBytes] at h
  | cons b bs ih =>
    have step : d ∈ Memory.ofBytes (k + 1) bs → k ≤ d.1 ∧ d.1 < k + (b :: bs).length := fun hd => by
      have := ih hd
      simp only [List.length_cons]
      omega
    unfold Memory.ofBytes at h
    split at h
    · exact step h
    · rcases List.mem_cons.1 h with rfl | h
      · simp
      · exact step h

theorem Memory.wf_ofBytes (k : Nat) (bs : List Byte) : Memory.wf (Memory.ofBytes k bs) := by
  induction bs generalizing k with
  | nil => exact Memory.wf_nil
  | cons b bs ih =>
    unfold Memory.ofBytes
    split
    · exact ih _
    · rename_i hb
      exact Memory.wf_cons.2 ⟨fun d hd => (Memory.mem_ofBytes hd).1, hb, ih _⟩

/-! ## Reading -/

theorem Memory.readByte_of_not_mem {m : Memory} {a : Nat} (h : ∀ d ∈ m, d.1 ≠ a) :
    Memory.readByte m a = Memory.unlisted := by
  induction m with
  | nil => rfl
  | cons e m ih =>
    obtain ⟨k, c⟩ := e
    have := h (k, c) (by simp)
    simp only [Memory.readByte]
    rw [if_neg this]
    exact ih fun d hd => h d (by simp [hd])

theorem Memory.readByte_writeByte {m : Memory} (h : Memory.wf m) (a k : Nat) (b : Byte) :
    Memory.readByte (Memory.writeByte m a b) k = if k = a then b else Memory.readByte m k := by
  induction m with
  | nil =>
    unfold Memory.writeByte
    split_ifs <;> simp only [Memory.readByte] <;> (try split_ifs) <;> first | rfl | omega | (subst_vars; simp_all)
  | cons e m ih =>
    obtain ⟨j, c⟩ := e
    obtain ⟨hj, hc, hm⟩ := Memory.wf_cons.1 h
    have tail : ∀ k, k ≤ j → Memory.readByte m k = Memory.unlisted := fun k hk =>
      Memory.readByte_of_not_mem fun d hd => by have := hj d hd; omega
    unfold Memory.writeByte
    have below := tail k
    split_ifs <;> (try simp only [Memory.readByte]) <;> (try rw [ih hm]) <;> (try split_ifs) <;>
      first | rfl | omega | (subst_vars; simp_all; done) | (rw [below (by omega)]; simp_all)

theorem Memory.readWord_writeWord_self {m : Memory} (h : Memory.wf m) (a : Nat) (v : Word) :
    Memory.readWord (Memory.writeWord m a v) a = v := by
  have hw := wordOfBytes_low_high v
  unfold Memory.readWord Memory.writeWord
  rw [Memory.readByte_writeByte (Memory.wf_writeByte h _ _), Memory.readByte_writeByte h,
    Memory.readByte_writeByte (Memory.wf_writeByte h _ _), Memory.readByte_writeByte h]
  simp [hw]

theorem Memory.readByte_writeWord_ne {m : Memory} (h : Memory.wf m) {a k : Nat} (v : Word)
    (h0 : k ≠ 2 * a) (h1 : k ≠ 2 * a + 1) :
    Memory.readByte (Memory.writeWord m a v) k = Memory.readByte m k := by
  unfold Memory.writeWord
  rw [Memory.readByte_writeByte (Memory.wf_writeByte h _ _), Memory.readByte_writeByte h, if_neg h1, if_neg h0]

theorem Memory.readWord_writeWord_ne {m : Memory} (h : Memory.wf m) {a b : Nat} (v : Word) (hab : b ≠ a) :
    Memory.readWord (Memory.writeWord m a v) b = Memory.readWord m b := by
  unfold Memory.readWord
  rw [Memory.readByte_writeWord_ne h v (by omega) (by omega), Memory.readByte_writeWord_ne h v (by omega) (by omega)]

theorem Memory.readByte_ofBytes (k : Nat) (bs : List Byte) (a : Nat) :
    Memory.readByte (Memory.ofBytes k bs) (k + a) = bs.getD a Memory.unlisted := by
  induction bs generalizing k a with
  | nil => simp [Memory.ofBytes, Memory.readByte]
  | cons b bs ih =>
    have past : Memory.readByte (Memory.ofBytes (k + 1) bs) k = Memory.unlisted :=
      Memory.readByte_of_not_mem fun d hd => by have := Memory.mem_ofBytes hd; omega
    unfold Memory.ofBytes
    cases a with
    | zero =>
      split
      · rename_i hb
        simpa [hb] using past
      · simp [Memory.readByte]
    | succ a =>
      have := ih (k + 1) a
      rw [show k + 1 + a = k + (a + 1) by omega] at this
      split
      · simpa using this
      · simpa [Memory.readByte] using this

end Sys2Proof.Machine
end

