-- ==== Sys2Proof/Laws/Cycle.lean ====
section
/-! SUPPORT. The cycle: the words a fetch sees, and everything a step can do, said once. -/

namespace Sys2Proof.Machine

theorem fetchWords_length (s : State) : (fetchWords s).length = min 4 (s.memLen.val - s.pc.toNat) := by
  simp [fetchWords]

/-- The fetch sees the words of memory at `pc`, as far as the image goes. -/
theorem fetchWords_getElem? (s : State) (k : Nat) :
    (fetchWords s)[k]? =
      if k < 4 ∧ s.pc.toNat + k < s.memLen.val then some (Memory.readWord s.mem (s.pc.toNat + k)) else none := by
  unfold fetchWords
  rw [List.getElem?_map]
  by_cases h : k < min 4 (s.memLen.val - s.pc.toNat)
  · rw [List.getElem?_range h, if_pos (by omega)]; rfl
  · rw [List.getElem?_eq_none (by rw [List.length_range]; omega), if_neg (by omega)]; rfl

/-- The ways a step can answer: it stays as it is, takes a character it waited for, stops for want of an instruction, pauses
before an instruction, or runs one. -/
inductive StepCase (s : State) : State → Prop where
  | halted (h : s.status = .halted) : StepCase s s
  | received (d : RegIdx) (hr : s.status = .running) (h : s.wait = .recv d) : StepCase s (receive d s)
  | stopped (r : DecodeReject) (hr : s.status = .running) (hw : s.wait = .none) (h : fetch s = .error r) :
      StepCase s (stopCycle r s)
  /-- still in a pause without a Confirm -/
  | stillPaused (i : Instr) (hr : s.status = .running) (h : s.wait = .confirm i) (hc : s.confirms = 0) : StepCase s s
  /-- newly in a pause without a Confirm -/
  | paused (i : Instr) (hr : s.status = .running) (hw : s.wait = .none) (h : fetch s = .ok i)
      (hd : debugTriggers s.pc s = true) (hc : s.confirms = 0) : StepCase s (pause i s.pc (advance i s))
  /-- ran an instruction, the debugger not involved -/
  | ran (i : Instr) (t : State) (hr : s.status = .running) (hw : s.wait = .none) (h : fetch s = .ok i)
      (hd : debugTriggers s.pc s = false) (he : exec i (advance i s) = .next t) : StepCase s t
  /-- ran an instruction after a pause that found a Confirm -/
  | ranConfirmed (i : Instr) (n : Nat) (t : State) (hr : s.status = .running) (hw : s.wait = .none) (h : fetch s = .ok i)
      (hd : debugTriggers s.pc s = true) (hc : s.confirms = n + 1)
      (he : exec i { pause i s.pc (advance i s) with confirms := n, wait := .none } = .next t) : StepCase s t
  /-- ran the instruction it had paused before -/
  | resumed (i : Instr) (n : Nat) (t : State) (hr : s.status = .running) (h : s.wait = .confirm i) (hc : s.confirms = n + 1)
      (he : exec i { s with confirms := n, wait := .none } = .next t) : StepCase s t

theorem step_case {s t : State} (h : step s = .next t) : StepCase s t := by
  unfold step at h
  cases hr : s.status with
  | halted => simp only [hr] at h; cases h; exact .halted hr
  | running =>
    simp only [hr] at h
    cases hw : s.wait with
    | recv d => simp only [hw] at h; cases h; exact .received d hr hw
    | confirm i =>
      simp only [hw] at h
      unfold answerPause at h
      cases hc : s.confirms with
      | zero => simp only [hc] at h; cases h; exact .stillPaused i hr hw hc
      | succ n => simp only [hc] at h; exact .resumed i n t hr hw hc h
    | none =>
      simp only [hw] at h
      unfold cycle at h
      cases hf : fetch s with
      | error r => simp only [hf] at h; cases h; exact .stopped r hr hw hf
      | ok i =>
        simp only [hf] at h
        cases hd : debugTriggers s.pc s with
        | false => simp only [hd] at h; exact .ran i t hr hw hf hd h
        | true =>
          simp only [hd, if_true] at h
          unfold answerPause at h
          simp only [pause_confirms, advance_confirms] at h
          cases hc : s.confirms with
          | zero => simp only [hc] at h; cases h; exact .paused i hr hw hf hd hc
          | succ n => simp only [hc] at h; exact .ranConfirmed i n t hr hw hf hd hc h

end Sys2Proof.Machine
end

