-- ==== Sys2Proof/Laws/PerInstr.lean ====
section
/-! SUPPORT. Facts about every instruction as syntax, one lemma per constructor. -/

namespace Sys2Proof.Laws.EncodeLength

/-- 30_encoding.md R45, R46: an instruction's encoding is one opcode word and `NARGS` operand words, at most four words, and
its operand words are those of its operands in order. -/
def Statement (i : Instr) : Prop :=
  (encode i).length = 1 + i.opcode.nargs ∧ (encode i).length ≤ 4 ∧ (encode i).head? = some i.opcode.toWord ∧
    (encode i).tail = i.operands.map fun ro => ro.2.toWord

theorem halt : Statement .halt := ⟨rfl, (by decide : 1 ≤ 4), rfl, rfl⟩

theorem set (a b : Operand) : Statement (.set a b) := ⟨rfl, (by decide : 3 ≤ 4), rfl, rfl⟩

theorem push (a : Operand) : Statement (.push a) := ⟨rfl, (by decide : 2 ≤ 4), rfl, rfl⟩

theorem pop (a : Operand) : Statement (.pop a) := ⟨rfl, (by decide : 2 ≤ 4), rfl, rfl⟩

theorem eq (a b c : Operand) : Statement (.eq a b c) := ⟨rfl, (by decide : 4 ≤ 4), rfl, rfl⟩

theorem gt (a b c : Operand) : Statement (.gt a b c) := ⟨rfl, (by decide : 4 ≤ 4), rfl, rfl⟩

theorem jmp (a : Operand) : Statement (.jmp a) := ⟨rfl, (by decide : 2 ≤ 4), rfl, rfl⟩

theorem jt (a b : Operand) : Statement (.jt a b) := ⟨rfl, (by decide : 3 ≤ 4), rfl, rfl⟩

theorem jf (a b : Operand) : Statement (.jf a b) := ⟨rfl, (by decide : 3 ≤ 4), rfl, rfl⟩

theorem add (a b c : Operand) : Statement (.add a b c) := ⟨rfl, (by decide : 4 ≤ 4), rfl, rfl⟩

theorem mult (a b c : Operand) : Statement (.mult a b c) := ⟨rfl, (by decide : 4 ≤ 4), rfl, rfl⟩

theorem mod (a b c : Operand) : Statement (.mod a b c) := ⟨rfl, (by decide : 4 ≤ 4), rfl, rfl⟩

theorem and (a b c : Operand) : Statement (.and a b c) := ⟨rfl, (by decide : 4 ≤ 4), rfl, rfl⟩

theorem or (a b c : Operand) : Statement (.or a b c) := ⟨rfl, (by decide : 4 ≤ 4), rfl, rfl⟩

theorem not (a b : Operand) : Statement (.not a b) := ⟨rfl, (by decide : 3 ≤ 4), rfl, rfl⟩

theorem rmem (a b : Operand) : Statement (.rmem a b) := ⟨rfl, (by decide : 3 ≤ 4), rfl, rfl⟩

theorem wmem (a b : Operand) : Statement (.wmem a b) := ⟨rfl, (by decide : 3 ≤ 4), rfl, rfl⟩

theorem call (a : Operand) : Statement (.call a) := ⟨rfl, (by decide : 2 ≤ 4), rfl, rfl⟩

theorem ret : Statement .ret := ⟨rfl, (by decide : 1 ≤ 4), rfl, rfl⟩

theorem out (a : Operand) : Statement (.out a) := ⟨rfl, (by decide : 2 ≤ 4), rfl, rfl⟩

theorem inp (a : Operand) : Statement (.inp a) := ⟨rfl, (by decide : 2 ≤ 4), rfl, rfl⟩

theorem noop : Statement .noop := ⟨rfl, (by decide : 1 ≤ 4), rfl, rfl⟩

end Sys2Proof.Laws.EncodeLength
end

