-- ==== Sys2Proof/Tests/Slice0.lean ====
section
/-! SUPPORT. Tests of one step each, with the expected results of spec/95_test_vectors.md (the vector is named at each), and
for every statement with hypotheses a witness that meets them, clause by clause. -/

namespace Sys2Proof.Tests

open Sys2Proof Sys2Proof.Machine

/-! ## Helpers -/

/-- The reset state with an image of these words. -/
def image (ws : List Nat) : State := placeAtPc (ws.map (BitVec.ofNat 16)) State.reset

/-- The next state an outcome holds. -/
def next? (o : Host.Outcome State Fault Refusal) : Option State :=
  match o with
  | .next t => some t
  | .fault _ => none
  | .refused _ => none

/-- What one step leaves of a state, by a view of it. -/
def after (s : State) {α : Type} (view : State → α) : Option α := (next? (step s)).map view

/-- The state in which an instruction of `n` words executes: `pc` past it. -/
def past (n : Nat) (s : State) : State := { s with pc := s.pc + BitVec.ofNat 16 n }

def withStackMax (m : Nat) (s : State) : State := { s with cfg := { s.cfg with stackMax := some m } }

def withDebugger (p : Nat) (s : State) : State :=
  { s with cfg := { s.cfg with debugEnabled := true, stepFrom := BitVec.ofNat 16 p } }

/-! ## WellFormed refuses each kind of ill-formed operand -/

theorem smoke_literal_destination : Instr.wellFormed (.set (.lit 3) (.lit 5)) = false := by decide

theorem smoke_invalid_destination : Instr.wellFormed (.pop (.invalid 32776)) = false := by decide

theorem smoke_invalid_source : Instr.wellFormed (.eq (.reg 0) (.lit 1) (.invalid 40000)) = false := by decide

theorem smoke_invalid_untaken_target : Instr.wellFormed (.jt (.lit 0) (.invalid 40000)) = false := by decide

theorem smoke_wmem_literal_address : Instr.wellFormed (.wmem (.lit 5) (.reg 0)) = true := by decide

theorem smoke_kind_of_no_word : Instr.encodable (.push (.invalid 5)) = false := by decide

theorem smoke_well_formed : Instr.wellFormed (.add (.reg 7) (.lit 32767) (.reg 0)) = true := by decide

/-! ## Decoding: words written out from 30_encoding.md R46, R49 and R62, low byte first -/

theorem decode_halt : decode [0x00, 0x00] = .ok .halt := by decide
theorem decode_set : decode [0x01, 0x00, 0x07, 0x80, 0xFF, 0x7F] = .ok (.set (.reg 7) (.lit 32767)) := by decide
theorem decode_push : decode [0x02, 0x00, 0x02, 0x80] = .ok (.push (.reg 2)) := by decide
theorem decode_pop : decode [0x03, 0x00, 0x00, 0x80] = .ok (.pop (.reg 0)) := by decide
theorem decode_eq : decode [0x04, 0x00, 0x00, 0x80, 0x01, 0x80, 0x04, 0x00] = .ok (.eq (.reg 0) (.reg 1) (.lit 4)) := by decide
theorem decode_gt : decode [0x05, 0x00, 0x00, 0x80, 0x05, 0x00, 0x04, 0x00] = .ok (.gt (.reg 0) (.lit 5) (.lit 4)) := by decide
theorem decode_jmp : decode [0x06, 0x00, 0x03, 0x00] = .ok (.jmp (.lit 3)) := by decide
theorem decode_jt : decode [0x07, 0x00, 0x00, 0x80, 0x04, 0x00] = .ok (.jt (.reg 0) (.lit 4)) := by decide
theorem decode_jf : decode [0x08, 0x00, 0x01, 0x00, 0xE7, 0x03] = .ok (.jf (.lit 1) (.lit 999)) := by decide
theorem decode_add : decode [0x09, 0x00, 0x00, 0x80, 0x01, 0x80, 0x04, 0x00] = .ok (.add (.reg 0) (.reg 1) (.lit 4)) := by decide
theorem decode_mult : decode [0x0A, 0x00, 0x00, 0x80, 0x00, 0x01, 0x80, 0x00] = .ok (.mult (.reg 0) (.lit 256) (.lit 128)) := by decide
theorem decode_mod : decode [0x0B, 0x00, 0x00, 0x80, 0x07, 0x00, 0x03, 0x00] = .ok (.mod (.reg 0) (.lit 7) (.lit 3)) := by decide
theorem decode_and : decode [0x0C, 0x00, 0x00, 0x80, 0x0C, 0x00, 0x0A, 0x00] = .ok (.and (.reg 0) (.lit 12) (.lit 10)) := by decide
theorem decode_or : decode [0x0D, 0x00, 0x00, 0x80, 0x0C, 0x00, 0x0A, 0x00] = .ok (.or (.reg 0) (.lit 12) (.lit 10)) := by decide
theorem decode_not : decode [0x0E, 0x00, 0x00, 0x80, 0xD2, 0x04] = .ok (.not (.reg 0) (.lit 1234)) := by decide
theorem decode_rmem : decode [0x0F, 0x00, 0x01, 0x80, 0x01, 0x80] = .ok (.rmem (.reg 1) (.reg 1)) := by decide
theorem decode_wmem : decode [0x10, 0x00, 0x04, 0x00, 0x63, 0x00] = .ok (.wmem (.lit 4) (.lit 99)) := by decide
theorem decode_call : decode [0x11, 0x00, 0x01, 0x80] = .ok (.call (.reg 1)) := by decide
theorem decode_ret : decode [0x12, 0x00] = .ok .ret := by decide
theorem decode_out : decode [0x13, 0x00, 0x41, 0x00] = .ok (.out (.lit 65)) := by decide
theorem decode_in : decode [0x14, 0x00, 0x00, 0x80] = .ok (.inp (.reg 0)) := by decide
theorem decode_noop : decode [0x15, 0x00] = .ok .noop := by decide

/-- The kinds of operand at the ends of their ranges (30_encoding.md R49), in a destination position too. -/
theorem decode_operand_kinds :
    decodeWords [4, 32767, 32775, 32776] = .ok (.eq (.lit 32767) (.reg 7) (.invalid 32776)) ∧
    decodeWords [4, 32768, 65535, 0] = .ok (.eq (.reg 0) (.invalid 65535) (.lit 0)) := by decide

/-- V-DEC-3 and V-DEC-7, and the empty image. -/
theorem decode_rejects :
    decodeWords [265, 0] = .error (.invalidOpcode 265) ∧ decodeWords [9, 32768, 1] = .error (.missingOperands .add) ∧
    decode [0xFF] = .error .noOpcode := by decide

/-- The host's numbering: `SET R0 2` is `0x0002_8000_0001`. -/
theorem decode_table_word : decodeTableWord 48 0x000280000001 = some (.set (.reg 0) (.lit 2)) := by decide

/-- A number of fewer bits than the instruction has: the operand words are 0. -/
theorem decode_table_word_short : decodeTableWord 16 0xFFFF0006 = some (.jmp (.lit 0)) := by decide

theorem encode_example : encodeBytes (.add (.reg 0) (.reg 1) (.lit 4)) = [0x09, 0x00, 0x00, 0x80, 0x01, 0x80, 0x04, 0x00] := by
  decide

/-! ## One step of each instruction -/

/-- V-HALT-1. -/
theorem test_halt : after (image [0]) (fun t => (t.pc, t.status, t.haltCause)) = some (1, .halted, .haltInstr) := by decide

/-- V-NOOP-1. -/
theorem test_noop : after (image [21, 0]) id = some { image [21, 0] with pc := 1 } := by decide

/-- V-SET-3. -/
theorem test_set_copies_16_bits :
    after (writeReg 0 40000 (image [1, 32769, 32768, 0])) (fun t => (t.regs.get 1, t.pc)) = some (40000, 3) := by decide

/-- V-SET-7. -/
theorem test_set_invalid_destination :
    after (image [1, 32776, 5, 0]) (fun t => (t.pc, t.haltCause, t.fault)) =
      some (3, .fault, some ⟨.invalidOperand, 0, .operand 1 32776⟩) := by decide

/-- V-PUSH-2. -/
theorem test_push : after { writeReg 2 65535 (image [2, 32770, 0]) with stack := [1] } (fun t => (t.stack, t.pc)) =
    some ([65535, 1], 2) := by decide

/-- V-PUSH-3. -/
theorem test_push_full :
    after { withStackMax 2 (image [2, 5, 0]) with stack := [2, 1] } (fun t => (t.stack, t.pc, t.fault)) =
      some ([2, 1], 2, some ⟨.stackOverflow, 0, .word 0⟩) := by decide

/-- V-POP-1. -/
theorem test_pop : after { image [3, 32768, 0] with stack := [9, 7] } (fun t => (t.regs.get 0, t.stack)) =
    some (9, [7]) := by decide

/-- V-POP-3: the operand is validated before the stack is looked at. -/
theorem test_pop_literal_destination :
    after { image [3, 0, 0] with stack := [7] } (fun t => (t.stack, t.fault)) =
      some ([7], some ⟨.literalDestination, 0, .operand 1 0⟩) := by decide

/-- V-EQ-3. -/
theorem test_eq_same_register : after (writeReg 0 77 (image [4, 32768, 32768, 32768, 0])) (fun t => (t.regs.get 0, t.pc)) =
    some (1, 4) := by decide

/-- V-EQ-4. -/
theorem test_eq_compares_values : after (writeReg 1 32773 (writeReg 0 9 (image [4, 32768, 32769, 5, 0])))
    (fun t => t.regs.get 0) = some 0 := by decide

/-- V-GT-4. -/
theorem test_gt_unsigned : after (writeReg 1 40000 (image [5, 32768, 32769, 32767, 0])) (fun t => t.regs.get 0) = some 1 := by
  decide

/-- V-GT-3. -/
theorem test_gt_strict : after (writeReg 0 9 (image [5, 32768, 4, 4, 0])) (fun t => t.regs.get 0) = some 0 := by decide

/-- V-JMP-2. -/
theorem test_jmp_indirect : after (writeReg 2 4 (image [6, 32770, 0, 21, 0])) (fun t => (t.pc, t.status)) =
    some (4, .running) := by decide

/-- V-JMP-3. -/
theorem test_jmp_to_memlen : after (image [6, 5, 0, 21, 0]) (fun t => (t.pc, t.fault)) =
    some (2, some ⟨.jumpTargetFault, 0, .word 5⟩) := by decide

/-- V-JT-3. -/
theorem test_jt_any_nonzero : after (writeReg 0 40000 (image [7, 32768, 4, 0, 0])) (fun t => t.pc) = some 4 := by decide

/-- V-JT-4. -/
theorem test_jt_untaken_target_unchecked : after (image [7, 0, 999, 0]) (fun t => (t.pc, t.status)) = some (3, .running) := by
  decide

/-- V-JF-2. -/
theorem test_jf_not_taken : after (writeReg 0 7 (image [8, 32768, 4, 0, 0])) (fun t => t.pc) = some 3 := by decide

/-- V-JF-4. -/
theorem test_jf_taken_outside : after (image [8, 0, 999, 0]) (fun t => (t.pc, t.fault)) =
    some (3, some ⟨.jumpTargetFault, 0, .word 999⟩) := by decide

/-- V-ADD-4. -/
theorem test_add_wraps : after (writeReg 0 20000 (image [9, 32768, 32768, 32768, 0])) (fun t => (t.regs.get 0, t.pc)) =
    some (7232, 4) := by decide

/-- V-ADD-6. -/
theorem test_add_16_bit_inputs : after (writeReg 1 65535 (writeReg 2 65535 (image [9, 32768, 32769, 32770, 0])))
    (fun t => t.regs.get 0) = some 32766 := by decide

/-- V-MULT-6. -/
theorem test_mult_16_bit_inputs : after (writeReg 1 65535 (image [10, 32768, 32769, 32769, 0]))
    (fun t => t.regs.get 0) = some 1 := by decide

/-- V-MULT-5. -/
theorem test_mult_wraps : after (image [10, 32768, 181, 182, 0]) (fun t => t.regs.get 0) = some 174 := by decide

/-- V-MOD-6. -/
theorem test_mod_16_bit_dividend : after (writeReg 1 40000 (image [11, 32768, 32769, 32767, 0]))
    (fun t => t.regs.get 0) = some 7233 := by decide

/-- V-MOD-5. -/
theorem test_mod_zero : after (writeReg 0 9 (image [11, 32768, 5, 0, 0])) (fun t => (t.regs.get 0, t.pc, t.fault)) =
    some (9, 4, some ⟨.divideByZero, 0, .word 0⟩) := by decide

/-- V-AND-4. -/
theorem test_and_keeps_bit_15 : after (writeReg 1 65535 (writeReg 2 40000 (image [12, 32768, 32769, 32770, 0])))
    (fun t => t.regs.get 0) = some 40000 := by decide

/-- V-OR-4. -/
theorem test_or_keeps_bit_15 : after (writeReg 1 32768 (image [13, 32768, 32769, 1, 0])) (fun t => t.regs.get 0) =
    some 32769 := by decide

/-- V-NOT-5. -/
theorem test_not_keeps_bit_15 : after (writeReg 1 32768 (image [14, 32768, 32769, 0])) (fun t => (t.regs.get 0, t.pc)) =
    some (65535, 3) := by decide

/-- V-NOT-4. -/
theorem test_not : after (image [14, 32768, 21845, 0]) (fun t => t.regs.get 0) = some 10922 := by decide

/-- V-RMEM-3. -/
theorem test_rmem_same_register : after (writeReg 1 2 (image [15, 32769, 32769, 0])) (fun t => (t.regs.get 1, t.pc)) =
    some (32769, 3) := by decide

/-- V-RMEM-4. -/
theorem test_rmem_at_memlen : after (writeReg 0 9 (image [15, 32768, 4, 0])) (fun t => (t.regs.get 0, t.fault)) =
    some (9, some ⟨.memAddressFault, 0, .word 4⟩) := by decide

/-- V-WMEM-4. -/
theorem test_wmem_16_bits : after (writeReg 0 4 (writeReg 1 65535 (image [16, 32768, 32769, 0, 5]))) imageWords =
    some [16, 32768, 32769, 0, 65535] := by decide

/-- V-WMEM-6, its first step. -/
theorem test_wmem_own_opcode : after (image [16, 0, 0, 21, 0]) (fun t => (imageWords t, t.pc)) =
    some ([0, 0, 0, 21, 0], 3) := by decide

/-- V-CALL-3. -/
theorem test_call_indirect : after (writeReg 1 3 (image [17, 32769, 0, 0])) (fun t => (t.pc, t.stack)) = some (3, [2]) := by
  decide

/-- V-CALL-6. -/
theorem test_call_target_first :
    after { withStackMax 1 (image [17, 9, 0, 0]) with stack := [1] } (fun t => (t.pc, t.stack, t.fault)) =
      some (2, [1], some ⟨.jumpTargetFault, 0, .word 9⟩) := by decide

/-- V-RET-1. -/
theorem test_ret_empty : after (image [18]) (fun t => (t.pc, t.haltCause, t.fault, t.diags)) =
    some (1, .retEmptyStack, none, [⟨.retEmptyStack, 0, .word 0⟩]) := by decide

/-- V-RET-4. -/
theorem test_ret : after { image [18, 0] with stack := [0, 9] } (fun t => (t.pc, t.stack, t.status)) =
    some (0, [9], .running) := by decide

/-- V-OUT-2. -/
theorem test_out : after (writeReg 0 40000 (image [19, 32768, 0])) (fun t => (t.output, t.pc)) = some ([40000], 2) := by decide

/-- V-OUT-4: the debugger triggers on this instruction, which goes on with the Confirm. -/
theorem test_out_suppressed : after { withDebugger 0 (image [19, 65, 0]) with confirms := 1 }
    (fun t => (t.output, t.pc, t.debugActive, t.pauses)) =
      some ([], 2, true, [⟨Vector.replicate 8 0, [], 0, 19, [65]⟩]) := by decide

/-- V-IN-3. -/
theorem test_in : after { writeReg 0 9 (image [20, 32768, 0]) with input := [255] }
    (fun t => (t.regs.get 0, t.pc, t.input, t.wait)) = some (255, 2, [], .none) := by decide

/-- V-IN-2. -/
theorem test_in_held : after (image [20, 32768, 0]) (fun t => (t.regs.get 0, t.pc, t.status, t.wait)) =
    some (0, 2, .running, .recv 0) := by decide

/-! ## Stops of the cycle -/

/-- V-DEC-3. -/
theorem test_invalid_opcode_continue : after (image [265, 0]) (fun t => (t.pc, t.status, t.fault, t.diags)) =
    some (1, .running, some ⟨.invalidOpcode, 0, .word 265⟩, [⟨.fault .invalidOpcode, 0, .word 265⟩]) := by decide

/-- V-DEC-2. -/
theorem test_invalid_opcode_halt :
    after { image [22, 0] with cfg := { Config.default with invalidOpcode := .halt } } (fun t => (t.pc, t.haltCause, t.fault)) =
      some (0, .fault, some ⟨.invalidOpcode, 0, .word 22⟩) := by decide

/-- V-DEC-5. -/
theorem test_empty_image : after State.reset (fun t => (t.pc, t.haltCause)) = some (0, .endOfImage) := by decide

/-- V-DEC-7. -/
theorem test_fetch_fault : after (image [9, 32768, 1]) (fun t => (t.pc, t.fault)) =
    some (0, some ⟨.fetchFault, 0, .word 3⟩) := by decide

/-- V-DEC-8. -/
theorem test_first_operand_reported : after (image [4, 5, 40000, 1, 0]) (fun t => (t.pc, t.fault)) =
    some (4, some ⟨.literalDestination, 0, .operand 1 5⟩) := by decide

/-- V-DEC-9. -/
theorem test_second_operand_reported : after (image [4, 32768, 40000, 50000, 0]) (fun t => t.fault) =
    some (some ⟨.invalidOperand, 0, .operand 2 40000⟩) := by decide

/-- The codes of 60_exceptions.md R99, in a record. -/
theorem test_fault_code : FaultRecord.code ⟨.stackOverflow, 0, .word 0⟩ = 9 := by decide

/-! ## Load, the host's placing of a word, the disassembler -/

/-- The words and `MEMLEN` of a state right after the load of these bytes. -/
def loaded (bs : List Byte) : Option (Nat × List Word) :=
  (next? (State.boot Config.default (some bs) [])).map fun s => (s.memLen.val, imageWords s)

/-- L1. -/
theorem test_load_little_endian : loaded [0x09, 0x00, 0x00, 0x80, 0x01, 0x80, 0x04, 0x00] = some (4, [9, 32768, 32769, 4]) := by
  decide

/-- L2. -/
theorem test_load_odd_byte : loaded [0x15, 0x00, 0x00] = some (1, [21]) := by decide

/-- L3. -/
theorem test_load_one_byte : loaded [0xFF] = some (0, []) := by decide

/-- The host's word at `pc` is what the next step runs. -/
theorem test_withFetchWord : after (State.reset.withFetchWord 48 0x000280000001) (fun t => (t.regs.get 0, t.pc)) =
    some (2, 3) := by decide

set_option maxRecDepth 20000 in
/-- Z4. -/
theorem test_listing_run : listing [19, 34, 19, 7, 19, 32769, 19, 126, 0] = "0: OUT \"\"7R1~\"\n8: HALT\n" := by decide

set_option maxRecDepth 20000 in
/-- Z6. -/
theorem test_listing_operands : listing [4, 3, 40000, 32775, 18] = "0: EQ 3 40000 R7\n4: RET\n" := by decide

/-- Z3 and Z5. -/
theorem test_listing_lines :
    disassemble [1, 32768] = [.bare 0 1, .bare 1 32768] ∧
    disassemble [21, 19, 65, 21, 19, 66, 19, 67, 22, 19] =
      [.instr 0 .noop [], .outRun 1 [65], .instr 3 .noop [], .outRun 4 [66, 67], .bare 8 22, .bare 9 19] := by decide

/-! ## Witnesses: concrete states and operands that meet the hypotheses of each statement, clause by clause -/

/-- `MEMLEN = 6`, `x[0] = 40000`, `x[1] = 5`, the other registers 0, no stack, no input; `pc` past an instruction of `n` words
at 0. -/
def base (n : Nat) : State := past n (writeReg 0 40000 (writeReg 1 5 (image [21, 21, 21, 21, 21, 21])))

theorem witness_HaltStopsTheRun : (base 1).pc = 0 + 1 := by decide

theorem witness_NoopOnlyAdvances : (base 1).pc = 0 + 1 := by decide

/-- Also for `NotInverts15Bits`, whose premises are the same. -/
theorem witness_SetCopiesWholeWord : (base 3).pc = 0 + 3 ∧ regidx (.reg 7) = some 7 ∧ resolve (base 3) (.reg 0) = some 40000 ∧
    resolve (base 3) (.lit 32767) = some 32767 := by decide

theorem witness_PushPushesOrOverflows_room : (withStackMax 1 (base 2)).pc = 0 + 2 ∧
    resolve (withStackMax 1 (base 2)) (.reg 0) = some 40000 ∧
    (withStackMax 1 (base 2)).cfg.stackMax ≠ some (withStackMax 1 (base 2)).stack.length := by decide

theorem witness_PushPushesOrOverflows_full : (withStackMax 0 (base 2)).pc = 0 + 2 ∧
    resolve (withStackMax 0 (base 2)) (.lit 5) = some 5 ∧
    (withStackMax 0 (base 2)).cfg.stackMax = some (withStackMax 0 (base 2)).stack.length := by decide

theorem witness_PopTakesTopOrStackEmpty_top : { base 2 with stack := [65535] }.pc = 0 + 2 ∧ regidx (.reg 0) = some 0 ∧
    { base 2 with stack := [65535] }.stack = 65535 :: [] := by decide

theorem witness_PopTakesTopOrStackEmpty_empty : (base 2).pc = 0 + 2 ∧ regidx (.reg 0) = some 0 ∧ (base 2).stack = [] := by
  decide

/-- The premises of the instructions with a destination and two sources: `EQ`, `GT`, `ADD`, `MULT`, `AND`, `OR`, and `MOD`,
with a divisor of 1 and of 0. Equal and different sources, with bit 15 and without. -/
theorem witness_three_operands : (base 4).pc = 0 + 4 ∧ regidx (.reg 0) = some 0 ∧ resolve (base 4) (.reg 0) = some 40000 ∧
    resolve (base 4) (.reg 1) = some 5 ∧ resolve (base 4) (.lit 5) = some 5 ∧
    resolve (base 4) (.lit 1) = some 1 ∧ (1 : Word) ≠ 0 ∧ resolve (base 4) (.reg 2) = some 0 := by decide

/-- A target one below `MEMLEN`, and one at it. -/
theorem witness_JmpTransfersOrFaults : (base 2).pc = 0 + 2 ∧
    (resolve (base 2) (.reg 1) = some 5 ∧ (5 : Word).toNat < (base 2).memLen.val) ∧
    (resolve (base 2) (.lit 6) = some 6 ∧ (base 2).memLen.val ≤ (6 : Word).toNat) := by decide

/-- Also for `JfJumpsWhenZero`: a zero and a non-zero condition, a target one below `MEMLEN` and one at it. -/
theorem witness_JtJumpsWhenNotZero : (base 3).pc = 0 + 3 ∧
    (resolve (base 3) (.reg 2) = some 0 ∧ resolve (base 3) (.reg 0) = some 40000 ∧ (40000 : Word) ≠ 0) ∧
    (resolve (base 3) (.lit 5) = some 5 ∧ (5 : Word).toNat < (base 3).memLen.val) ∧
    (resolve (base 3) (.lit 6) = some 6 ∧ (base 3).memLen.val ≤ (6 : Word).toNat) := by decide

/-- An address one below `MEMLEN`, and one at it. -/
theorem witness_RmemLoadsWholeWord : (base 3).pc = 0 + 3 ∧ regidx (.reg 1) = some 1 ∧
    (resolve (base 3) (.reg 1) = some 5 ∧ (5 : Word).toNat < (base 3).memLen.val) ∧
    (resolve (base 3) (.lit 6) = some 6 ∧ (base 3).memLen.val ≤ (6 : Word).toNat) := by decide

theorem witness_WmemStoresOneWord : (base 3).pc = 0 + 3 ∧ Memory.wf (base 3).mem ∧ resolve (base 3) (.reg 0) = some 40000 ∧
    (resolve (base 3) (.lit 5) = some 5 ∧ (5 : Word).toNat < (base 3).memLen.val) ∧
    (resolve (base 3) (.lit 6) = some 6 ∧ (base 3).memLen.val ≤ (6 : Word).toNat) := by decide

/-- A bad target (also on a full stack, where the bad target counts), a good one on a full stack, a good one with room. -/
theorem witness_CallPushesReturnAddress : (withStackMax 0 (base 2)).pc = 0 + 2 ∧
    (resolve (withStackMax 0 (base 2)) (.lit 6) = some 6 ∧ (withStackMax 0 (base 2)).memLen.val ≤ (6 : Word).toNat) ∧
    (resolve (withStackMax 0 (base 2)) (.lit 5) = some 5 ∧ (5 : Word).toNat < (withStackMax 0 (base 2)).memLen.val ∧
      (withStackMax 0 (base 2)).cfg.stackMax = some (withStackMax 0 (base 2)).stack.length) ∧
    ((base 2).pc = 0 + 2 ∧ resolve (base 2) (.lit 5) = some 5 ∧ (5 : Word).toNat < (base 2).memLen.val ∧
      (base 2).cfg.stackMax ≠ some (base 2).stack.length) := by decide

theorem witness_RetJumpsToTopOrHalts : (base 1).pc = 0 + 1 ∧ (base 1).stack = [] ∧
    ({ base 1 with stack := [5, 9] }.stack = 5 :: [9] ∧ (5 : Word).toNat < (base 1).memLen.val) ∧
    ({ base 1 with stack := [6] }.stack = 6 :: [] ∧ (base 1).memLen.val ≤ (6 : Word).toNat) := by decide

theorem witness_OutEmitsUnlessDebugging : (base 2).pc = 0 + 2 ∧ resolve (base 2) (.reg 0) = some 40000 ∧
    (base 2).debugActive = false ∧
    ({ base 2 with debugActive := true }.pc = 0 + 2 ∧ resolve { base 2 with debugActive := true } (.lit 0) = some 0 ∧
      { base 2 with debugActive := true }.debugActive = true) := by decide

theorem witness_InReceivesOrHolds : (base 2).pc = 0 + 2 ∧ (base 2).wait = .none ∧ (base 2).status = .running ∧
    regidx (.reg 0) = some 0 ∧ (base 2).input = [] ∧
    ({ base 2 with input := [255] }.pc = 0 + 2 ∧ { base 2 with input := [255] }.wait = .none ∧
      { base 2 with input := [255] }.status = .running ∧ { base 2 with input := [255] }.input = 255 :: []) := by decide

theorem witness_OperandWordsResolve : (32767 : Word).toNat ≤ 32767 ∧ 32776 ≤ (32776 : Word).toNat ∧
    32776 ≤ (65535 : Word).toNat := by decide

/-- 32767, 32768 and 32775, 32776. -/
theorem witness_OperandKindsByBits : (32767 : Word).getLsbD 15 = false ∧
    ((32768 : Word).getLsbD 15 = true ∧ (32768 : Word).extractLsb' 3 12 = 0) ∧
    ((32775 : Word).getLsbD 15 = true ∧ (32775 : Word).extractLsb' 3 12 = 0) ∧
    ((32776 : Word).getLsbD 15 = true ∧ (32776 : Word).extractLsb' 3 12 ≠ 0) := by decide

/-- The third operand of an `EQ` is the first that does not fit. -/
theorem witness_OperandsAreValidatedFirst_invalid :
    (Instr.eq (.reg 0) (.lit 1) (.invalid 32776)).encodable = true ∧
    (Instr.eq (.reg 0) (.lit 1) (.invalid 32776)).operands[2]? = some (.src, .invalid 32776) ∧
    Role.src.admits (.invalid 32776) = false ∧
    Role.dst.admits (.reg 0) = true ∧ Role.src.admits (.lit 1) = true := by decide

/-- A literal destination before an invalid source. -/
theorem witness_OperandsAreValidatedFirst_literal :
    (Instr.set (.lit 32767) (.invalid 65535)).encodable = true ∧
    (Instr.set (.lit 32767) (.invalid 65535)).operands[0]? = some (.dst, .lit 32767) ∧
    Role.dst.admits (.lit 32767) = false := by decide

theorem witness_OperandsAreValidatedFirst_fit : (Instr.set (.reg 0) (.lit 5)).encodable = true ∧
    (Instr.set (.reg 0) (.lit 5)).wellFormed = true := by decide

theorem witness_ArgumentCounts : 22 ≤ (22 : Word).toNat := by decide

/-- An instruction that validation rejects has an encoding too. -/
theorem witness_DecodeOfEncode : (Instr.set (.reg 7) (.lit 32767)).wellFormed = true ∧
    (Instr.eq (.lit 0) (.invalid 32776) (.invalid 65535)).encodable = true := by decide

theorem witness_EncodeOfDecode : decodeWords [1, 32775, 32776, 99] = .ok (.set (.reg 7) (.invalid 32776)) := by decide

theorem witness_StepRunsDecodedInstruction : (image [1, 32768, 2]).status = .running ∧ (image [1, 32768, 2]).wait = .none ∧
    debugTriggers (image [1, 32768, 2]).pc (image [1, 32768, 2]) = false ∧
    decodeWords (fetchWords (image [1, 32768, 2])) = .ok (.set (.reg 0) (.lit 2)) := by decide

/-- An instruction that ends where the image ends. -/
theorem witness_StepRunsEncodedInstruction : (image [1, 32768, 2]).status = .running ∧ (image [1, 32768, 2]).wait = .none ∧
    (image [1, 32768, 2]).cfg.debugEnabled = false ∧ (Instr.set (.reg 0) (.lit 2)).encodable = true ∧
    (image [1, 32768, 2]).pc.toNat + (Instr.set (.reg 0) (.lit 2)).length ≤ (image [1, 32768, 2]).memLen.val ∧
    ∀ k, k < (Instr.set (.reg 0) (.lit 2)).length → (encode (.set (.reg 0) (.lit 2)))[k]? =
      some (Memory.readWord (image [1, 32768, 2]).mem ((image [1, 32768, 2]).pc.toNat + k)) := by decide

theorem witness_EndOfImageHalts : State.reset.status = .running ∧ State.reset.wait = .none ∧
    State.reset.memLen.val ≤ State.reset.pc.toNat := by decide

/-- The last operand word alone is missing. -/
theorem witness_MissingOperandsFetchFault : (image [9, 32768, 1]).status = .running ∧ (image [9, 32768, 1]).wait = .none ∧
    (image [9, 32768, 1]).pc.toNat < (image [9, 32768, 1]).memLen.val ∧
    Memory.readWord (image [9, 32768, 1]).mem (image [9, 32768, 1]).pc.toNat = Opcode.add.toWord ∧
    (image [9, 32768, 1]).memLen.val ≤ (image [9, 32768, 1]).pc.toNat + Opcode.add.nargs := by decide

theorem witness_InvalidOpcodeIsSkippedOrHalts : (image [22]).status = .running ∧ (image [22]).wait = .none ∧
    (image [22]).pc.toNat < (image [22]).memLen.val ∧ Memory.readWord (image [22]).mem (image [22]).pc.toNat = 22 ∧
    22 ≤ (22 : Word).toNat ∧ (image [22]).cfg.invalidOpcode = .continue ∧
    { image [22] with cfg := { Config.default with invalidOpcode := .halt } }.cfg.invalidOpcode = .halt := by decide

theorem witness_HaltedIsTerminal : { image [21] with status := .halted, haltCause := .haltInstr }.status = .halted := by decide

theorem witness_FaultsArePrecise : (base 4).haltCause ≠ .fault ∧
    ∃ t, exec (.mod (.reg 0) (.lit 5) (.lit 0)) (base 4) = .next t ∧ t.haltCause = .fault := ⟨by decide, _, rfl, rfl⟩

/-- An instruction for each fault, all well formed, at the boundary where there is one. -/
theorem witness_FaultsOfEachInstruction :
    exec (.pop (.reg 0)) (base 2) = .next (raise .stackEmpty 0 (.word 0) (base 2)) ∧
    exec (.mod (.reg 0) (.lit 5) (.reg 2)) (base 4) = .next (raise .divideByZero 0 (.word 0) (base 4)) ∧
    exec (.rmem (.reg 0) (.lit 6)) (base 3) = .next (raise .memAddressFault 0 (.word 6) (base 3)) ∧
    exec (.call (.lit 6)) (base 2) = .next (raise .jumpTargetFault 0 (.word 6) (base 2)) ∧
    exec (.push (.lit 5)) (withStackMax 0 (base 2)) =
      .next (raise .stackOverflow 0 (.word 0) (withStackMax 0 (base 2))) ∧
    exec (.wmem (.lit 6) (.reg 2)) (base 3) = .next (raise .memAddressFault 0 (.word 6) (base 3)) ∧
    exec (.jt (.reg 0) (.lit 6)) (base 3) = .next (raise .jumpTargetFault 0 (.word 6) (base 3)) ∧
    exec (.jf (.reg 2) (.lit 6)) (base 3) = .next (raise .jumpTargetFault 0 (.word 6) (base 3)) ∧
    exec .ret { base 1 with stack := [6] } = .next (raise .jumpTargetFault 0 (.word 6) { base 1 with stack := [6] }) ∧
    exec (.call (.lit 5)) (withStackMax 0 (base 2)) =
      .next (raise .stackOverflow 0 (.word 0) (withStackMax 0 (base 2))) ∧
    [Instr.pop (.reg 0), .mod (.reg 0) (.lit 5) (.reg 2), .rmem (.reg 0) (.lit 6), .call (.lit 6), .push (.lit 5),
      .wmem (.lit 6) (.reg 2), .jt (.reg 0) (.lit 6), .jf (.reg 2) (.lit 6), .ret, .call (.lit 5)].all
      Instr.wellFormed = true :=
  ⟨rfl, rfl, rfl, rfl, rfl, rfl, rfl, rfl, rfl, rfl, by decide⟩

/-- For each clause an instruction that does change what it may. -/
theorem witness_OnlyTheseInstructionsWrite :
    (∃ t, exec (.set (.reg 7) (.lit 1)) (base 3) = .next t ∧ t.regs.get 7 ≠ (base 3).regs.get 7) ∧
    (∃ t, exec (.wmem (.lit 5) (.reg 0)) (base 3) = .next t ∧ t.mem ≠ (base 3).mem) ∧
    (∃ t, exec (.push (.lit 1)) (base 2) = .next t ∧ t.stack ≠ (base 2).stack) ∧
    (∃ t, exec (.jmp (.lit 0)) (base 2) = .next t ∧ t.pc ≠ (base 2).pc) ∧
    (∃ t, exec (.out (.lit 0)) (base 2) = .next t ∧ t.output ≠ (base 2).output) ∧
    (∃ t, exec (.inp (.reg 0)) { base 2 with input := [10] } = .next t ∧ t.input ≠ [10]) ∧
    (∃ t, exec (.pop (.reg 0)) (base 2) = .next t ∧ t.diags ≠ (base 2).diags) ∧
    (∃ t, exec .ret (base 1) = .next t ∧ t.diags ≠ (base 1).diags) :=
  ⟨⟨_, rfl, by decide⟩, ⟨_, rfl, by decide⟩, ⟨_, rfl, by decide⟩, ⟨_, rfl, by decide⟩, ⟨_, rfl, by decide⟩,
    ⟨_, rfl, by decide⟩, ⟨_, rfl, by decide⟩, ⟨_, rfl, by decide⟩⟩

theorem witness_StepsNeverUndo :
    (∃ t, step { image [22] with debugActive := true, fault := some ⟨.invalidOpcode, 3, .word 23⟩ } = .next t) ∧
    ∃ t, step { image [22] with status := .halted } = .next t := ⟨⟨_, rfl⟩, ⟨_, rfl⟩⟩

/-- The reset state has the invariant, and so has one with an image that stands before a store. -/
theorem image_inv : (image [16, 4, 99, 0, 0]).Inv := by
  constructor <;> first | decide | simp [image, placeAtPc, State.reset, Config.default]

theorem reset_inv : State.reset.Inv := by
  constructor <;> first | decide | simp [State.reset, Config.default]

theorem witness_StepKeepsInvariant : (image [16, 4, 99, 0, 0]).Inv ∧ ∃ t, step (image [16, 4, 99, 0, 0]) = .next t :=
  ⟨image_inv, _, rfl⟩

/-- A wait in a pause that has the invariant. -/
theorem witness_StepKeepsInvariant_pause :
    { past 1 (withDebugger 0 (image [21, 0])) with debugActive := true, confirms := 1, wait := .confirm .noop }.Inv := by
  constructor <;> first
    | decide
    | (intro i h; cases h; decide)

/-- A held `IN` that has the invariant, at the least `pc` it can have. -/
theorem witness_StepKeepsInvariant_held : { past 2 (image [20, 32768]) with wait := .recv 0 }.Inv := by
  constructor <;> first
    | decide
    | (intro d h; cases h)

theorem witness_BootAndEnvironmentHaveInvariant :
    (∃ s, State.boot Config.default (some [0x15, 0x00, 0x00]) [65, 10] = .next s) ∧ State.reset.Inv :=
  ⟨⟨_, rfl⟩, reset_inv⟩

/-- An image with an odd byte, and the bounds on an image's length. -/
theorem witness_ImageLoadIsLittleEndian :
    ([0x34, 0x12, 0xFF] : List Byte).length / 2 ≤ 65535 ∧ 0 < ([0x34, 0x12, 0xFF] : List Byte).length / 2 ∧
    ([0x34, 0x12, 0xFF] : List Byte)[2 * 0]? = some 0x34 ∧ ([0x34, 0x12, 0xFF] : List Byte)[2 * 0 + 1]? = some 0x12 := by
  decide

theorem witness_ImageLoadIsLittleEndian_bounds : (List.replicate 131071 (0 : Byte)).length / 2 ≤ 65535 ∧
    65535 < (List.replicate 131072 (0 : Byte)).length / 2 := by simp only [List.length_replicate]; decide

theorem witness_ResetLeavesTheStatedValues :
    ∃ s, State.boot Config.default (some [0x15, 0x00, 0x00]) [65, 10] = .next s := ⟨_, rfl⟩

/-- The last cell of the image, which is also the last operand word of a fetch. -/
theorem witness_StoresAreSeenByLoadsAndFetch : Memory.wf (base 0).mem ∧ (5 : Word).toNat < (base 0).memLen.val ∧
    (∃ t, memWrite 5 40000 (base 0) = .ok t) ∧ (4 : Word) ≠ 5 ∧ 3 < 4 ∧ (2 : Word).toNat + 3 = (5 : Word).toNat :=
  ⟨by decide, by decide, ⟨_, rfl⟩, by decide, by decide, by decide⟩

/-- Three pushes that just fit, and all three popped. -/
theorem witness_StackIsLastInFirstOut :
    [Operand.lit 1, .reg 0, .lit 3].map (resolve (withStackMax 3 (base 0))) = [1, 40000, 3].map some ∧
    (∀ m, (withStackMax 3 (base 0)).cfg.stackMax = some m →
      (withStackMax 3 (base 0)).stack.length + ([1, 40000, 3] : List Word).length ≤ m) ∧
    2 < ([1, 40000, 3] : List Word).length :=
  ⟨by decide, fun m h => by cases h; decide, by decide⟩

/-- V-CALL-2. -/
theorem witness_CallThenRetResumes : (image [17, 3, 0, 18]).status = .running ∧ (image [17, 3, 0, 18]).wait = .none ∧
    (image [17, 3, 0, 18]).cfg.debugEnabled = false ∧
    (image [17, 3, 0, 18]).pc.toNat + 2 < (image [17, 3, 0, 18]).memLen.val ∧
    Memory.readWord (image [17, 3, 0, 18]).mem (image [17, 3, 0, 18]).pc.toNat = 17 ∧
    Memory.readWord (image [17, 3, 0, 18]).mem ((image [17, 3, 0, 18]).pc.toNat + 1) = 3 ∧
    resolve (image [17, 3, 0, 18]) (Operand.ofWord 3) = some 3 ∧ (3 : Word).toNat < (image [17, 3, 0, 18]).memLen.val ∧
    Memory.readWord (image [17, 3, 0, 18]).mem (3 : Word).toNat = 18 ∧
    (image [17, 3, 0, 18]).cfg.stackMax ≠ some (image [17, 3, 0, 18]).stack.length := by decide

theorem witness_IntermediateWidthDoesNotMatter : 16 ≤ 16 := by decide

/-- A line of one newline, which the `IN` takes. -/
theorem witness_InputStaysWholeLines : wholeLines [10] = true ∧
    (∃ t, exec (.inp (.reg 0)) { base 2 with input := [10] } = .next t ∧ t.input = []) ∧ wholeLines [65, 10] = true :=
  ⟨by decide, ⟨_, rfl, rfl⟩, by decide⟩

/-- Triggered by the address, with no Confirm and with one; and, at another address, by the flag. -/
theorem witness_DebuggerPausesUntilConfirm : (withDebugger 0 (image [19, 65, 0])).status = .running ∧
    (withDebugger 0 (image [19, 65, 0])).wait = .none ∧
    decodeWords (fetchWords (withDebugger 0 (image [19, 65, 0]))) = .ok (.out (.lit 65)) ∧
    (withDebugger 0 (image [19, 65, 0])).cfg.debugEnabled = true ∧
    (withDebugger 0 (image [19, 65, 0])).pc = (withDebugger 0 (image [19, 65, 0])).cfg.stepFrom ∧
    (withDebugger 0 (image [19, 65, 0])).confirms = 0 ∧
    { withDebugger 0 (image [19, 65, 0]) with confirms := 1 }.confirms = 0 + 1 ∧
    ({ withDebugger 2 (image [19, 65, 0]) with debugActive := true }.debugActive = true ∧
      (withDebugger 2 (image [19, 65, 0])).pc ≠ (withDebugger 2 (image [19, 65, 0])).cfg.stepFrom) := by decide

/-- The same machine with the debugger and without it, before an `OUT` that the debugger suppresses. -/
theorem witness_DebuggerChangesOnlyOutput :
    { withDebugger 0 (image [19, 65, 0]) with confirms := 1 }.withoutDebugger = (image [19, 65, 0]).withoutDebugger ∧
    (image [19, 65, 0]).cfg.debugEnabled = false ∧ (image [19, 65, 0]).debugActive = false ∧
    0 < { withDebugger 0 (image [19, 65, 0]) with confirms := 1 }.confirms ∧
    (∀ i, { withDebugger 0 (image [19, 65, 0]) with confirms := 1 }.wait ≠ .confirm i) ∧
    ∃ t, step { withDebugger 0 (image [19, 65, 0]) with confirms := 1 } = .next t :=
  ⟨by decide, by decide, by decide, by decide, fun _ h => Wait.noConfusion h, _, rfl⟩

theorem witness_ListingCoversTheImage : (disassemble [21, 19, 65])[1]? = some (.outRun 1 [65]) := by decide

theorem witness_ListingReadsBackInstructions : ∀ i ∈ [Instr.set (.reg 0) (.lit 19), .halt], i.opcode ≠ .out := by decide

/-- The first and the last code of each of the three ranges. -/
theorem witness_OperandAndCodeText : (32768 : Word).toNat = 32768 + (0 : RegIdx).val ∧
    (32775 : Word).toNat = 32768 + (7 : RegIdx).val ∧
    ((32 : Word).toNat < 32768 ∧ 32 ≤ (32 : Word).toNat ∧ (126 : Word).toNat ≤ 126) ∧ (10 : Word).toNat = 10 ∧
    ((127 : Word).toNat ≠ 10 ∧ 126 < (127 : Word).toNat) ∧ ((31 : Word).toNat ≠ 10 ∧ (31 : Word).toNat < 32) ∧
    32776 ≤ (32776 : Word).toNat := by decide

end Sys2Proof.Tests
end

section
/-! PROOF. Reset with an image (10_state.md R30, 20_memory.md R36): what the loader leaves in memory, and in the rest of the
state. -/

namespace Sys2Proof

/-- The words of a byte stream by position: word `a` is the bytes at `2a` (low) and `2a + 1` (high). -/
theorem wordsOfBytes_eq_map_range (bs : List Byte) :
    wordsOfBytes bs = (List.range (bs.length / 2)).map fun a => wordOfBytes (bs.getD (2 * a) 0) (bs.getD (2 * a + 1) 0) := by
  induction bs using wordsOfBytes.induct with
  | case1 lo hi bs ih =>
    have half : (lo :: hi :: bs).length / 2 = bs.length / 2 + 1 := by simp only [List.length_cons]; omega
    rw [wordsOfBytes, ih, half, List.range_succ_eq_map]
    simp [Nat.mul_add]
  | case2 bs short =>
    match bs, short with
    | [], _ => rfl
    | [_], _ => simp [wordsOfBytes]
    | lo :: hi :: bs, short => exact (short lo hi bs rfl).elim

end Sys2Proof

namespace Sys2Proof.Machine

/-- A cell of a loaded stream, whatever its bytes: a byte left out of the memory reads as the 0 it is. -/
theorem Memory.readWord_ofBytes (bs : List Byte) (a : Nat) :
    Memory.readWord (Memory.ofBytes 0 bs) a = wordOfBytes (bs.getD (2 * a) 0) (bs.getD (2 * a + 1) 0) := by
  have byte (k : Nat) : Memory.readByte (Memory.ofBytes 0 bs) k = bs.getD k 0 := by
    simpa using Memory.readByte_ofBytes 0 bs k
  rw [Memory.readWord, byte, byte]

/-- Dropping a trailing odd byte (20_memory.md R36) leaves the words as they are. -/
theorem Memory.readWord_ofBytes_take {bs : List Byte} {a : Nat} (h : a < bs.length / 2) :
    Memory.readWord (Memory.ofBytes 0 (bs.take (2 * (bs.length / 2)))) a =
      wordOfBytes (bs.getD (2 * a) 0) (bs.getD (2 * a + 1) 0) := by
  have kept {k : Nat} (hk : k < 2 * (bs.length / 2)) : (bs.take (2 * (bs.length / 2))).getD k 0 = bs.getD k 0 := by
    simp only [List.getD_eq_getElem?_getD, List.getElem?_take_of_lt hk]
  rw [Memory.readWord_ofBytes, kept (by omega), kept (by omega)]

/-- What a reset with an image answers: the reset state with `MEMLEN` and memory from the image, and nothing else set. -/
theorem State.boot_some_eq_next {cfg : Config} {bs input : List Byte} {s : State} :
    State.boot cfg (some bs) input = .next s ↔
      ∃ h : bs.length / 2 < 65536, s = { State.resetWith cfg input with
        memLen := ⟨bs.length / 2, h⟩
        mem := Memory.ofBytes 0 (bs.take (2 * (bs.length / 2))) } := by
  unfold State.boot
  by_cases h : bs.length / 2 < 65536
  · simp [h, eq_comm]
  · simp [h]

/-- R28, R36: after a reset the image's cells hold the words of the image file. -/
theorem imageWords_of_boot {cfg : Config} {bs input : List Byte} {s : State}
    (h : State.boot cfg (some bs) input = .next s) : imageWords s = wordsOfBytes bs := by
  obtain ⟨_, rfl⟩ := State.boot_some_eq_next.mp h
  rw [wordsOfBytes_eq_map_range]
  exact List.map_congr_left fun a ha => Memory.readWord_ofBytes_take (List.mem_range.mp ha)

/-- 10_state.md R30: every register is 0 at reset. -/
theorem State.reset_regs_get (i : RegIdx) : State.reset.regs.get i = 0 := by
  simp [State.reset, Vector.get]

/-- Settles O47: memory by `imageWords_of_boot`, the registers by `State.reset_regs_get`; the loader sets no other field, so
the rest stands as `State.resetWith` has it. -/
theorem resetLeavesTheStatedValues : Obligations.ResetLeavesTheStatedValues := by
  intro cfg bs input s h
  have words := imageWords_of_boot h
  obtain ⟨_, rfl⟩ := State.boot_some_eq_next.mp h
  exact ⟨words, State.reset_regs_get, rfl, rfl, rfl, rfl, rfl, rfl, rfl, rfl, rfl, rfl⟩

end Sys2Proof.Machine
end

section
/-! PROOF. The order of bytes in the image file, and the longest image a reset accepts (20_memory.md R36, 00_scope.md R4). -/

namespace Sys2Proof

/-- 20_memory.md R36 in numbers: the byte at the lower file offset has weight 1, the other weight 256. -/
theorem wordOfBytes_toNat (lo hi : Byte) : (wordOfBytes lo hi).toNat = lo.toNat + 256 * hi.toNat := by
  rw [wordOfBytes, BitVec.toNat_append, ← Nat.shiftLeft_add_eq_or_of_lt lo.isLt, Nat.shiftLeft_eq]
  omega

end Sys2Proof

namespace Sys2Proof.Machine

/-- 00_scope.md R4: an image of more than 65535 words is refused, with their number. -/
theorem State.boot_some_refused {cfg : Config} {bs input : List Byte} (long : 65535 < bs.length / 2) :
    State.boot cfg (some bs) input = .refused (.imageTooLong (bs.length / 2)) :=
  dif_neg (Nat.not_lt.mpr long)

/-- Settles O46: a load that fits is `State.boot_some_eq_next`, each of its cells `Memory.readWord_ofBytes_take` read as a
number by `wordOfBytes_toNat`; a longer one is `State.boot_some_refused`; an absent one leaves the reset state. -/
theorem imageLoadIsLittleEndian : Obligations.ImageLoadIsLittleEndian := by
  intro cfg bs input
  refine ⟨fun fits => ?loads, State.boot_some_refused, State.resetWith cfg input, rfl, rfl⟩
  case loads =>
    refine ⟨_, State.boot_some_eq_next.mpr ⟨Nat.lt_succ_of_le fits, rfl⟩, rfl, fun i lo hi cell low high => ?_⟩
    rw [Memory.readWord_ofBytes_take cell, wordOfBytes_toNat, List.getD_eq_getElem?_getD, List.getD_eq_getElem?_getD,
      low, high, Option.getD_some, Option.getD_some]

end Sys2Proof.Machine
end

section
/-! PROOF. What an operand word denotes, as a number and by its bits, and the argument counts (30_encoding.md R48 to R52). -/

namespace Sys2Proof

/-- 30_encoding.md R50: bit 15 tells the literals from the other two kinds. -/
theorem word_bit15_eq (w : Word) : w.getLsbD 15 = decide (32768 ≤ w.toNat) :=
  (BitVec.msb_eq_getLsbD_last w).symm.trans (BitVec.msb_eq_decide w)

/-- R50: bits 14 to 3 are clear where, apart from bit 15, the word is at most 7. -/
theorem word_bits14to3_eq_zero_iff (w : Word) : w.extractLsb' 3 12 = 0 ↔ w.toNat % 32768 < 8 := by
  have zero : (0 : BitVec 12).toNat = 0 := rfl
  rw [← BitVec.toNat_inj, BitVec.extractLsb'_toNat, Nat.shiftRight_eq_div_pow, zero]
  omega

/-- Settles O24: bit 15 and bits 14 to 3 as the numeric ranges of R49, which `Operand.ofWord_lit`, `Operand.ofWord_reg` and
`Operand.ofWord_invalid` speak of. -/
theorem operandKindsByBits : Obligations.OperandKindsByBits := by
  intro w
  have bound := w.isLt
  have bit15 := word_bit15_eq w
  have bits14to3 := word_bits14to3_eq_zero_iff w
  refine ⟨fun clear => ?literal, fun isSet low => ?register, fun isSet high => ?invalid⟩
  case literal =>
    have below : w.toNat < 32768 := Nat.lt_of_not_le (of_decide_eq_false (bit15.symm.trans clear))
    rw [Operand.ofWord_lit below, BitVec.setWidth_eq_extractLsb' (by decide)]
  case register =>
    have from15 : 32768 ≤ w.toNat := of_decide_eq_true (bit15.symm.trans isSet)
    have small := bits14to3.mp low
    refine Operand.ofWord_reg _ ?_
    rw [BitVec.val_toFin, BitVec.extractLsb'_toNat, Nat.shiftRight_zero]
    omega
  case invalid =>
    have from15 : 32768 ≤ w.toNat := of_decide_eq_true (bit15.symm.trans isSet)
    have large := mt bits14to3.mpr high
    exact Operand.ofWord_invalid (by omega)

/-- Settles O26: the table by evaluation, and `Opcode.ofWord_eq_none_iff` past its end. -/
theorem argumentCounts : Obligations.ArgumentCounts :=
  ⟨by decide, fun w past => (Opcode.ofWord_eq_none_iff w).mpr past⟩

end Sys2Proof

namespace Sys2Proof.Machine

/-- R51: a literal is its own value. -/
theorem resolve_ofWord_literal (s : State) {w : Word} (h : w.toNat ≤ 32767) : resolve s (Operand.ofWord w) = some w := by
  have lit := Operand.ofWord_lit (Nat.lt_succ_of_le h)
  calc resolve s (Operand.ofWord w)
    _ = some (Operand.ofWord w).toWord := by rw [lit]; rfl
    _ = some w := by rw [Operand.toWord_ofWord]

/-- R49: the word `32768 + i` is the register `x[i]`. -/
theorem ofWord_register (i : RegIdx) : Operand.ofWord (BitVec.ofNat 16 (32768 + i.val)) = .reg i :=
  Operand.ofWord_reg i (by rw [BitVec.toNat_ofNat]; omega)

/-- Settles O23, by the three ranges of R49. -/
theorem operandWordsResolve : Obligations.OperandWordsResolve := by
  intro s
  refine ⟨fun w low => ⟨resolve_ofWord_literal s low, ?literal⟩, fun i => ?register, fun w high => ?invalid⟩
  case literal =>
    rw [Operand.ofWord_lit (Nat.lt_succ_of_le low), regidx]
  case register =>
    rw [ofWord_register]
    exact ⟨rfl, rfl, fun v => congrArg some (readReg_writeReg_self i v s)⟩
  case invalid =>
    rw [Operand.ofWord_invalid (Nat.lt_of_succ_le high)]
    exact ⟨rfl, rfl⟩

end Sys2Proof.Machine
end

section
/-! PROOF. Validation of operands (30_encoding.md R58): every instruction checks its operands in order, each against its role,
before anything else it does. -/

namespace Sys2Proof

/-- The fault of an operand that its role does not admit (R58): a literal where a register is to be written, or a word without
meaning. Every role admits a register, so its value is never used. -/
def Operand.misfitKind : Operand → Machine.FaultKind
  | .invalid _ => .invalidOperand
  | .lit _ => .literalDestination
  | .reg _ => .literalDestination

/-- For the kind of some word, the fault is decided by the word alone (60_exceptions.md R102, R103). -/
theorem Operand.misfitKind_eq {o : Operand} (h : o.isKind = true) :
    o.misfitKind = if 32775 < o.toWord.toNat then .invalidOperand else .literalDestination := by
  cases o with
  | lit v =>
    have small : ¬ 32775 < (Operand.lit v).toWord.toNat := by
      rw [Operand.toWord, BitVec.toNat_setWidth_of_le (by decide)]; omega
    rw [if_neg small, misfitKind]
  | reg i =>
    have small : ¬ 32775 < (Operand.reg i).toWord.toNat := by
      rw [Operand.toWord, BitVec.toNat_ofNat]; omega
    rw [if_neg small, misfitKind]
  | invalid w =>
    have large : 32775 < (Operand.invalid w).toWord.toNat := of_decide_eq_true h
    rw [if_pos large, misfitKind]

end Sys2Proof

namespace Sys2Proof.Machine

/-- What remains of an instruction once its operands fit: no fault of an operand, and no fault reported by an effect that
succeeds (the diagnostic of `RET` with an empty stack is none). -/
inductive OwnEffect (s : State) : Except Trap State → Prop where
  | ok {t : State} (h : t.diags = s.diags) : OwnEffect s (.ok t)
  | retHalted {t : State} {p : Word} {info : FaultInfo} (h : t.diags = s.diags ++ [⟨.retEmptyStack, p, info⟩]) :
      OwnEffect s (.ok t)
  | error {f : Trap} (hi : f.kind ≠ .invalidOperand) (hl : f.kind ≠ .literalDestination) : OwnEffect s (.error f)

/-- `e` validates `ops`, the first of them at position `k`, and then is an instruction's own effect. -/
inductive ValidatesFirst (s : State) : Nat → List (Role × Operand) → Except Trap State → Prop where
  | effect {k : Nat} {e : Except Trap State} (h : OwnEffect s e) : ValidatesFirst s k [] e
  | fits {k : Nat} {r : Role} {o : Operand} {ops : List (Role × Operand)} {e : Except Trap State}
      (h : r.admits o = true) (rest : ValidatesFirst s (k + 1) ops e) : ValidatesFirst s k ((r, o) :: ops) e
  | misfit {k : Nat} {r : Role} {o : Operand} {ops : List (Role × Operand)} (h : r.admits o = false) :
      ValidatesFirst s k ((r, o) :: ops) (.error ⟨o.misfitKind, .operand k o.toWord⟩)

section Validation
variable {s : State} {k : Nat} {ops : List (Role × Operand)} {e : Except Trap State}

/-! ## The operands of the five shapes -/

theorem ValidatesFirst.source {o : Operand} {f : Word → Except Trap State}
    (rest : ∀ u, ValidatesFirst s (k + 1) ops (f u)) :
    ValidatesFirst s k ((.src, o) :: ops) (source k o s >>= f) := by
  cases o with
  | lit v => exact .fits rfl (rest (v.setWidth 16))
  | reg i => exact .fits rfl (rest (readReg i s))
  | invalid w => exact .misfit rfl

theorem ValidatesFirst.destination {o : Operand} {f : RegIdx → Except Trap State}
    (rest : ∀ d, ValidatesFirst s (k + 1) ops (f d)) :
    ValidatesFirst s k ((.dst, o) :: ops) (destination k o >>= f) := by
  cases o with
  | lit v => exact .misfit rfl
  | reg i => exact .fits rfl (rest i)
  | invalid w => exact .misfit rfl

/-! ## What validation decides -/

/-- The first operand that does not fit is the fault. -/
theorem ValidatesFirst.eq_error (h : ValidatesFirst s k ops e) {j : Nat} {r : Role} {o : Operand}
    (ho : ops[j]? = some (r, o)) (hmis : r.admits o = false)
    (before : ∀ j' r' o', j' < j → ops[j']? = some (r', o') → r'.admits o' = true) :
    e = .error ⟨o.misfitKind, .operand (k + j) o.toWord⟩ := by
  induction h generalizing j with
  | effect _ => simp at ho
  | fits hfit _ ih =>
    cases j with
    | zero => cases ho; exact absurd hfit (by simp [hmis])
    | succ j =>
      rw [ih ho fun j' r' o' lt h' => before (j' + 1) r' o' (Nat.succ_lt_succ lt) h', Nat.add_assoc, Nat.add_comm 1]
  | misfit h =>
    cases j with
    | zero => cases ho; rfl
    | succ j => exact absurd (before 0 _ _ j.succ_pos rfl) (by simp [h])

/-- Where every operand fits, only the instruction's own effect is left. -/
theorem ValidatesFirst.ownEffect (h : ValidatesFirst s k ops e) (fit : ∀ ro ∈ ops, ro.1.admits ro.2 = true) :
    OwnEffect s e := by
  induction h with
  | effect h => exact h
  | fits _ _ ih => exact ih fun ro hro => fit ro (List.mem_cons_of_mem _ hro)
  | misfit h => exact absurd (fit _ List.mem_cons_self) (by simp [h])

/-! ## The own effects that can fault -/

theorem OwnEffect.ite {c : Prop} [Decidable c] {e' : Except Trap State} (yes : OwnEffect s e) (no : OwnEffect s e') :
    OwnEffect s (if c then e else e') := by
  split
  · exact yes
  · exact no

theorem transfer_ownEffect (t : Word) : OwnEffect s (transfer t s) :=
  .ite (.ok rfl) (.error nofun nofun)

theorem pushWord_ownEffect (v : Word) : OwnEffect s (pushWord v s) :=
  .ite (.error nofun nofun) (.ok rfl)

theorem memWrite_ownEffect (a v : Word) : OwnEffect s (memWrite a v s) :=
  .ite (.ok rfl) (.error nofun nofun)

theorem memRead_writeReg_ownEffect (a : Word) (d : RegIdx) :
    OwnEffect s (memRead a s >>= fun v => .ok (writeReg d v s)) := by
  unfold memRead
  split
  · exact .ok rfl
  · exact .error nofun nofun

theorem pushWord_transfer_ownEffect (v t : Word) : OwnEffect s (pushWord v s >>= fun s' => transfer t s') := by
  unfold pushWord
  split
  · exact .error nofun nofun
  · exact .ite (.ok rfl) (.error nofun nofun)

theorem transfer_pop_ownEffect (t : Word) (rest : List Word) :
    OwnEffect s ((transfer t s).map fun s' => { s' with stack := rest }) := by
  unfold transfer
  split
  · exact .ok rfl
  · exact .error nofun nofun

theorem receive_diags (d : RegIdx) (s : State) : (receive d s).diags = s.diags := by
  rcases receive_cases d s with ⟨-, h⟩ | ⟨c, cs, -, h⟩
  · rw [h]
  · rw [h]; rfl

end Validation

/-- R58 for every instruction: its operands are validated in order, and its own effect comes after. -/
theorem exec_validatesFirst (i : Instr) (s : State) :
    ∃ e, exec i s = attempt i.length s e ∧ ValidatesFirst s 1 i.operands e := by
  cases i with
  | halt => exact ⟨.ok (haltWith .haltInstr s), rfl, .effect (.ok rfl)⟩
  | noop => exact ⟨.ok s, rfl, .effect (.ok rfl)⟩
  | ret =>
    refine ⟨_, rfl, .effect ?_⟩
    cases s.stack with
    | nil => exact .retHalted rfl
    | cons t rest => exact transfer_pop_ownEffect t rest
  | push a => exact ⟨_, rfl, .source fun v => .effect (pushWord_ownEffect v)⟩
  | jmp a => exact ⟨_, rfl, .source fun t => .effect (transfer_ownEffect t)⟩
  | call a =>
    exact ⟨_, rfl, .source fun t => .effect (.ite (pushWord_transfer_ownEffect s.pc t) (.error nofun nofun))⟩
  | out a =>
    refine ⟨_, rfl, .source fun v => .effect (.ok ?_)⟩
    cases s.debugActive <;> rfl
  | jt a b => exact ⟨_, rfl, .source fun _ => .source fun t => .effect (.ite (transfer_ownEffect t) (.ok rfl))⟩
  | jf a b => exact ⟨_, rfl, .source fun _ => .source fun t => .effect (.ite (.ok rfl) (transfer_ownEffect t))⟩
  | wmem a b => exact ⟨_, rfl, .source fun addr => .source fun v => .effect (memWrite_ownEffect addr v)⟩
  | pop a =>
    refine ⟨_, rfl, .destination fun d => .effect ?_⟩
    cases s.stack with
    | nil => exact .error nofun nofun
    | cons v rest => exact .ok rfl
  | inp a => exact ⟨_, rfl, .destination fun d => .effect (.ok (receive_diags d s))⟩
  | set a b => exact ⟨_, rfl, .destination fun _ => .source fun _ => .effect (.ok rfl)⟩
  | not a b => exact ⟨_, rfl, .destination fun _ => .source fun _ => .effect (.ok rfl)⟩
  | rmem a b => exact ⟨_, rfl, .destination fun d => .source fun addr => .effect (memRead_writeReg_ownEffect addr d)⟩
  | mod a b c =>
    exact ⟨_, rfl, .destination fun _ => .source fun _ => .source fun _ => .effect (.ite (.error nofun nofun) (.ok rfl))⟩
  | eq a b c => exact ⟨_, rfl, .destination fun _ => .source fun _ => .source fun _ => .effect (.ok rfl)⟩
  | gt a b c => exact ⟨_, rfl, .destination fun _ => .source fun _ => .source fun _ => .effect (.ok rfl)⟩
  | add a b c => exact ⟨_, rfl, .destination fun _ => .source fun _ => .source fun _ => .effect (.ok rfl)⟩
  | mult a b c => exact ⟨_, rfl, .destination fun _ => .source fun _ => .source fun _ => .effect (.ok rfl)⟩
  | and a b c => exact ⟨_, rfl, .destination fun _ => .source fun _ => .source fun _ => .effect (.ok rfl)⟩
  | or a b c => exact ⟨_, rfl, .destination fun _ => .source fun _ => .source fun _ => .effect (.ok rfl)⟩

/-- An own effect that ends in a fault's state has met that fault, and it is not one of an operand: the diagnostics tell. -/
theorem OwnEffect.kind_of_raise {len : Nat} {s : State} {e : Except Trap State} {k : FaultKind} {p : Word} {info : FaultInfo}
    (h : OwnEffect s e) (hr : attempt len s e = .next (raise k p info s)) :
    k ≠ .invalidOperand ∧ k ≠ .literalDestination := by
  cases h with
  | @ok t same =>
    have faulted : t = raise k p info s := by simpa using hr
    simp [faulted] at same
  | @retHalted t _ _ diag =>
    have faulted : t = raise k p info s := by simpa using hr
    simp [faulted] at diag
  | @error f hi hl =>
    have faulted : raise f.kind (opcodeAddr len s) f.info s = raise k p info s := by simpa using hr
    have kind : f.kind = k := by simpa using congrArg (fun t => t.diags.getLast?.map Diag.kind) faulted
    exact kind ▸ ⟨hi, hl⟩

/-- Settles O25, both clauses from `exec_validatesFirst`: a misfit is the answer of `ValidatesFirst.eq_error`; with none, what
is left is an own effect, which `OwnEffect.kind_of_raise` keeps apart from the two faults of operands. -/
theorem operandsAreValidatedFirst : Obligations.OperandsAreValidatedFirst := by
  intro i s encodable
  obtain ⟨e, runs, validates⟩ := exec_validatesFirst i s
  refine ⟨fun k r o ho hmis before => ?misfit, fun wellFormed p info => ?fit⟩
  case misfit =>
    have kind : o.isKind = true := List.all_eq_true.mp encodable _ (List.mem_of_getElem? ho)
    rw [runs, validates.eq_error ho hmis before, Operand.misfitKind_eq kind, Nat.add_comm]
    rfl
  case fit =>
    have own : OwnEffect s e := validates.ownEffect (List.all_eq_true.mp wellFormed)
    rw [runs]
    exact ⟨fun h => (own.kind_of_raise h).1 rfl, fun h => (own.kind_of_raise h).2 rfl⟩

end Sys2Proof.Machine
end

section
/-! PROOF. A cycle that finds no instruction (30_encoding.md R55, R59). -/

namespace Sys2Proof.Machine

/-- A machine that starts a cycle and fetches no instruction takes the stop for the decoder's reason. -/
theorem step_of_fetch_error {s : State} {r : DecodeReject} (running : s.status = .running) (free : s.wait = .none)
    (h : fetch s = .error r) : step s = .next (stopCycle r s) := by
  simp only [step, running, free, cycle, h]

/-- R55: at or past `MEMLEN` there is no word to fetch. -/
theorem fetch_past_image {s : State} (h : s.memLen.val ≤ s.pc.toNat) : fetch s = .error .noOpcode := by
  have none : fetchWords s = [] := List.eq_nil_of_length_eq_zero (by rw [fetchWords_length]; omega)
  rw [fetch, none, decodeWords]

/-- Inside the image the first word fetched is the one at `pc`. -/
theorem fetchWords_eq_cons {s : State} (h : s.pc.toNat < s.memLen.val) :
    ∃ ws, fetchWords s = Memory.readWord s.mem s.pc.toNat :: ws := by
  have first : (fetchWords s).head? = some (Memory.readWord s.mem s.pc.toNat) := by
    rw [List.head?_eq_getElem?, fetchWords_getElem?, if_pos ⟨by decide, h⟩, Nat.add_zero]
  exact ⟨_, List.eq_cons_of_mem_head? first⟩

/-- R59: a word of 22 or more at `pc` selects no instruction, whatever follows it. -/
theorem fetch_invalid_opcode {s : State} (inside : s.pc.toNat < s.memLen.val)
    (h : 22 ≤ (Memory.readWord s.mem s.pc.toNat).toNat) :
    fetch s = .error (.invalidOpcode (Memory.readWord s.mem s.pc.toNat)) := by
  obtain ⟨ws, words⟩ := fetchWords_eq_cons inside
  rw [fetch, words, decodeWords, (Opcode.ofWord_eq_none_iff _).mpr h]

/-- 60_exceptions.md R100, R109: a report adds its diagnostic and keeps the first fault; nothing else changes. -/
theorem report_eq (k : FaultKind) (p : Word) (info : FaultInfo) (s : State) :
    report k p info s = { s with
      diags := s.diags ++ [⟨.fault k, p, info⟩]
      fault := some (s.fault.getD ⟨k, p, info⟩) } := by
  rw [← report_fault]
  rfl

/-- Settles O33: past the image the fetch finds no opcode word, and the invariant bounds `pc` by `MEMLEN`. -/
theorem endOfImageHalts : Obligations.EndOfImageHalts := by
  intro s running free past
  exact ⟨step_of_fetch_error running free (fetch_past_image past), fun inv => Nat.le_antisymm inv.pcInImage past⟩

/-- Settles O35: the fetch rejects the word, and each policy's stop is the report spelled out by `report_eq`. -/
theorem invalidOpcodeIsSkippedOrHalts : Obligations.InvalidOpcodeIsSkippedOrHalts := by
  rintro s _ running free inside rfl high
  rw [step_of_fetch_error running free (fetch_invalid_opcode inside high), stopCycle, invalidOpcode]
  refine ⟨fun policy => ?continues, fun policy => ?halts⟩
  case continues => rw [policy, report_eq]
  case halts => rw [policy, raise, report_eq, haltWith]

end Sys2Proof.Machine
end

section
/-! PROOF. The meaning of `NOOP` (40_system.md R72). -/

namespace Sys2Proof.Machine

/-- The cycle advances `pc` before `exec` runs, so nothing is left for `NOOP` to do. -/
@[simp] theorem exec_noop (s : State) : exec .noop s = .next s := rfl

/-- Settles O2: `NOOP` has no operand to encode after its opcode, and by `exec_noop` it answers its own state, whose `pc` is
already `p + 1`. -/
theorem noopOnlyAdvances : Obligations.NoopOnlyAdvances := by
  refine ⟨rfl, fun s p advanced => ?answer⟩
  case answer => rw [exec_noop, ← advanced]

end Sys2Proof.Machine
end

section
/-! PROOF. `SET` and `PUSH` with operands that fit (41_move_stack.md R73, R74). -/

namespace Sys2Proof.Machine

section Fit
variable {a b : Operand} {s : State} {d : RegIdx} {v : Word}

/-- R73: with operands that fit, `SET` is one register write. -/
theorem exec_set (ha : regidx a = some d) (hb : resolve s b = some v) : exec (.set a b) s = .next (writeReg d v s) :=
  withDstSrc_fit _ ha hb

/-- R74: with an operand that fits, `PUSH` is one push. -/
theorem exec_push (ha : resolve s a = some v) : exec (.push a) s = attempt 2 s (pushWord v s) :=
  withSrc_fit _ ha

/-- 10_state.md R22: a push with room left. -/
theorem pushWord_room (room : s.cfg.stackMax ≠ some s.stack.length) :
    pushWord v s = .ok { s with stack := v :: s.stack } :=
  pushWord_cases.mpr ⟨room, rfl⟩

/-- 60_exceptions.md R108: a push on a full stack. -/
theorem pushWord_full (full : s.cfg.stackMax = some s.stack.length) :
    pushWord v s = .error ⟨.stackOverflow, .word 0⟩ :=
  if_pos (stackFull_iff.mpr full)

end Fit

/-- Settles O3: by `exec_set` the answer is `writeReg d v s`, whose `pc` is already `p + 3`. -/
theorem setCopiesWholeWord : Obligations.SetCopiesWholeWord := by
  intro s p a b d v advanced ha hb
  refine ⟨rfl, ?answer⟩
  case answer => rw [exec_set ha hb, writeReg, advanced]

/-- Settles O4: `exec_push` leaves the push, which `pushWord_room` and `pushWord_full` answer; the fault's address is `p`
because `pc` is two words past it. -/
theorem pushPushesOrOverflows : Obligations.PushPushesOrOverflows := by
  intro s p a v advanced ha
  refine ⟨rfl, fun room => ?room, fun full => ?full⟩
  case room => rw [exec_push ha, pushWord_room room, attempt_ok, advanced]
  case full => rw [exec_push ha, pushWord_full full, attempt_error, opcodeAddr_of_pc advanced]

end Sys2Proof.Machine
end

section
/-! PROOF. `EQ` and `GT` with operands that fit (42_compare.md R76, R77). -/

namespace Sys2Proof.Machine

/-- 42_compare.md: the truth word of a proposition, by the proposition itself. -/
theorem truthWord_decide (c : Prop) [Decidable c] : truthWord (decide c) = if c then 1 else 0 := by
  simp only [truthWord, decide_eq_true_eq]

/-- R76: equal full words, as the numbers they denote, are the same word. -/
theorem truthWord_wordsEqual (u v : Word) : truthWord (wordsEqual u v) = if u = v then 1 else 0 := by
  simp only [wordsEqual, truthWord_decide, BitVec.toNat_inj]

/-- R77: the first word stands on the left of the strict comparison. -/
theorem truthWord_wordGreater (u v : Word) : truthWord (wordGreater u v) = if u.toNat > v.toNat then 1 else 0 :=
  truthWord_decide _

section Fit
variable {a b c : Operand} {s : State} {d : RegIdx} {u v : Word}

/-- R76: with operands that fit, `EQ` is one register write, of sources read in the old state. -/
theorem exec_eq (ha : regidx a = some d) (hb : resolve s b = some u) (hc : resolve s c = some v) :
    exec (.eq a b c) s = .next (writeReg d (truthWord (wordsEqual u v)) s) :=
  withDstSrcSrc_fit _ ha hb hc

/-- R77: with operands that fit, `GT` is one register write, of sources read in the old state. -/
theorem exec_gt (ha : regidx a = some d) (hb : resolve s b = some u) (hc : resolve s c = some v) :
    exec (.gt a b c) s = .next (writeReg d (truthWord (wordGreater u v)) s) :=
  withDstSrcSrc_fit _ ha hb hc

end Fit

/-- Settles O6: by `exec_eq` the answer is one `writeReg`, whose `pc` is already `p + 4`, and `truthWord_wordsEqual` says
which word it writes. -/
theorem eqComparesWholeWords : Obligations.EqComparesWholeWords := by
  intro s p a b c d u v advanced ha hb hc
  refine ⟨rfl, ?answer⟩
  case answer => rw [exec_eq ha hb hc, truthWord_wordsEqual, writeReg, advanced]

/-- Settles O7: by `exec_gt` the answer is one `writeReg`, whose `pc` is already `p + 4`, and `truthWord_wordGreater` says
which word it writes. -/
theorem gtComparesUnsigned : Obligations.GtComparesUnsigned := by
  intro s p a b c d u v advanced ha hb hc
  refine ⟨rfl, ?answer⟩
  case answer => rw [exec_gt ha hb hc, truthWord_wordGreater, writeReg, advanced]

end Sys2Proof.Machine
end

section
/-! PROOF. `JMP`, `JT` and `JF` with operands that fit (43_jumps.md R78 to R81). -/

namespace Sys2Proof.Machine

/-- R80: a condition is the whole word, and any word but 0 holds. -/
theorem holds_iff {u : Word} : holds u = true ↔ u ≠ 0 :=
  decide_eq_true_iff.trans (not_congr (BitVec.toNat_inj (y := 0)))

section Fit
variable {len : Nat} {a b : Operand} {s : State} {p u t : Word}

/-- R78: an instruction that ends in a transfer inside the image changes `pc` alone. -/
theorem attempt_transfer_inside (inside : t.toNat < s.memLen.val) :
    attempt len s (transfer t s) = .next { s with pc := t } := by
  rw [transfer_cases.mpr ⟨inside, rfl⟩, attempt_ok]

/-- R78, 60_exceptions.md R107: a transfer at or above `MEMLEN` is a fault of the instruction at `p`. -/
theorem attempt_transfer_outside (advanced : s.pc = p + BitVec.ofNat 16 len) (outside : s.memLen.val ≤ t.toNat) :
    attempt len s (transfer t s) = .next (raise .jumpTargetFault p (.word t) s) := by
  have faults : transfer t s = .error ⟨.jumpTargetFault, .word t⟩ := if_neg (mt inImage_iff.mp (Nat.not_lt.mpr outside))
  rw [faults, attempt_error, opcodeAddr_of_pc advanced]

/-- R79: with an operand that fits, `JMP` is one transfer. -/
theorem exec_jmp (ha : resolve s a = some t) : exec (.jmp a) s = attempt 2 s (transfer t s) :=
  withSrc_fit _ ha

/-- R80: with operands that fit, `JT` transfers where its condition is not 0, and otherwise only ends. -/
theorem exec_jt (ha : resolve s a = some u) (hb : resolve s b = some t) :
    exec (.jt a b) s = if u = 0 then .next s else attempt 3 s (transfer t s) := by
  have runs : exec (.jt a b) s = attempt 3 s (if holds u then transfer t s else .ok s) := withSrcSrc_fit _ ha hb
  rw [runs, apply_ite (attempt 3 s), attempt_ok]
  simp only [holds_iff, ne_eq, ite_not]

/-- R81: with operands that fit, `JF` transfers where its condition is 0, and otherwise only ends. -/
theorem exec_jf (ha : resolve s a = some u) (hb : resolve s b = some t) :
    exec (.jf a b) s = if u = 0 then attempt 3 s (transfer t s) else .next s := by
  have runs : exec (.jf a b) s = attempt 3 s (if holds u then .ok s else transfer t s) := withSrcSrc_fit _ ha hb
  rw [runs, apply_ite (attempt 3 s), attempt_ok]
  simp only [holds_iff, ne_eq, ite_not]

end Fit

/-- Settles O8: by `exec_jmp` the answer is one transfer, which `attempt_transfer_inside` and `attempt_transfer_outside`
answer. -/
theorem jmpTransfersOrFaults : Obligations.JmpTransfersOrFaults := by
  intro s p a t advanced ha
  refine ⟨rfl, fun inside => ?jumps, fun outside => ?faults⟩
  case jumps => rw [exec_jmp ha, attempt_transfer_inside inside]
  case faults => rw [exec_jmp ha, attempt_transfer_outside advanced outside]

/-- Settles O9: `exec_jt` decides by the condition alone whether there is a transfer; where there is none the answer is the
state itself, whose `pc` is already `p + 3`. -/
theorem jtJumpsWhenNotZero : Obligations.JtJumpsWhenNotZero := by
  intro s p a b u t advanced ha hb
  refine ⟨rfl, fun zero => ?advances, fun nonzero inside => ?jumps, fun nonzero outside => ?faults⟩
  case advances => rw [exec_jt ha hb, if_pos zero, ← advanced]
  case jumps => rw [exec_jt ha hb, if_neg nonzero, attempt_transfer_inside inside]
  case faults => rw [exec_jt ha hb, if_neg nonzero, attempt_transfer_outside advanced outside]

/-- Settles O10: `exec_jf` has the two branches of `exec_jt` exchanged; what `JT` does on the same operands is
`jtJumpsWhenNotZero`. -/
theorem jfJumpsWhenZero : Obligations.JfJumpsWhenZero := by
  intro s p a b u t advanced ha hb
  obtain ⟨-, jtAdvances, jtJumps, -⟩ := jtJumpsWhenNotZero s p a b u t advanced ha hb
  refine ⟨rfl, fun nonzero => ?advances, fun zero inside => ?jumps, fun zero outside => ?faults, jtAdvances, jtJumps⟩
  case advances => rw [exec_jf ha hb, if_neg nonzero, ← advanced]
  case jumps => rw [exec_jf ha hb, if_pos zero, attempt_transfer_inside inside]
  case faults => rw [exec_jf ha hb, if_pos zero, attempt_transfer_outside advanced outside]

end Sys2Proof.Machine
end

section
/-! PROOF. The words the six ALU instructions compute (44_alu.md R82 to R88). -/

namespace Sys2Proof.Machine

/-- R82, R83: a number reduced to 15 bits fits the word. -/
theorem toNat_ofNat_mod_32768 (n : Nat) : (BitVec.ofNat 16 (n % 32768)).toNat = n % 32768 :=
  (BitVec.toNat_ofNat _ _).trans (Nat.mod_eq_of_lt (by omega))

/-- R83, as numbers. -/
theorem addWords_toNat (u v : Word) : (addWords u v).toNat = (u.toNat + v.toNat) % 32768 :=
  toNat_ofNat_mod_32768 _

/-- R84, as numbers. -/
theorem multWords_toNat (u v : Word) : (multWords u v).toNat = (u.toNat * v.toNat) % 32768 :=
  toNat_ofNat_mod_32768 _

/-- R85: a remainder never exceeds the dividend, so it fits the word. -/
theorem modWords_toNat (u v : Word) : (modWords u v).toNat = u.toNat % v.toNat :=
  (BitVec.toNat_ofNat _ _).trans (Nat.mod_eq_of_lt (Nat.lt_of_le_of_lt (Nat.mod_le _ _) u.isLt))

/-- R88: the mask of `NOT` covers bits 0 to 14 and no other. -/
theorem notMask_eq : (0x7FFF : Word) = (BitVec.allOnes 15).setWidth 16 := rfl

/-- R88, bit by bit. -/
theorem notWord_getLsbD (u : Word) (i : Nat) : (notWord u).getLsbD i = (u.getLsbD i ^^ decide (i < 15)) := by
  have below16 : (decide (i < 16) && decide (i < 15)) = decide (i < 15) := by
    rw [← Bool.decide_and, decide_eq_decide]; omega
  rw [notWord, BitVec.getLsbD_xor, notMask_eq, BitVec.getLsbD_setWidth, BitVec.getLsbD_allOnes, below16]

/-- R88: the mask applied twice cancels. -/
theorem notWord_notWord (u : Word) : notWord (notWord u) = u := by
  rw [notWord, notWord, BitVec.xor_assoc, BitVec.xor_self, BitVec.xor_zero]

/-- R88: on a 15-bit value `NOT` is the complement in 15 bits. -/
theorem notWord_setWidth (v : BitVec 15) : notWord (v.setWidth 16) = (~~~v).setWidth 16 := by
  rw [notWord, notMask_eq, ← BitVec.setWidth_xor, BitVec.xor_allOnes]

/-- R88: `32767 - u` on a word that holds a 15-bit value. -/
theorem notWord_toNat_of_lt {u : Word} (h : u.toNat < 32768) : (notWord u).toNat = 32767 - u.toNat := by
  obtain ⟨v, rfl⟩ : ∃ v : BitVec 15, u = v.setWidth 16 := ⟨u.setWidth 15, by bv_omega⟩
  rw [notWord_setWidth, BitVec.toNat_setWidth_of_le (by decide), BitVec.toNat_setWidth_of_le (by decide), BitVec.toNat_not]

end Sys2Proof.Machine
end

section
/-! PROOF. `ADD`, `MULT`, `MOD`, `AND`, `OR` and `NOT` with operands that fit (44_alu.md R83 to R88). -/

namespace Sys2Proof.Machine

/-- 10_state.md R16: the second of two writes to a register replaces the first. -/
@[simp] theorem writeReg_writeReg_self (i : RegIdx) (u v : Word) (s : State) :
    writeReg i v (writeReg i u s) = writeReg i v s := by
  simp only [writeReg, Vector.set_set]

/-- What an instruction that writes one register leaves, where the cycle has advanced `pc` to `q`. -/
theorem writeReg_of_pc {s : State} {q : Word} (advanced : s.pc = q) (d : RegIdx) (w : Word) :
    writeReg d w s = { s with pc := q, regs := s.regs.set d w } := by
  rw [writeReg, advanced]

section Fit
variable {a b c : Operand} {s : State} {d : RegIdx} {u v : Word}

/-- R83: with operands that fit, `ADD` is one register write, of sources read in the old state. -/
theorem exec_add (ha : regidx a = some d) (hb : resolve s b = some u) (hc : resolve s c = some v) :
    exec (.add a b c) s = .next (writeReg d (addWords u v) s) :=
  withDstSrcSrc_fit _ ha hb hc

/-- R84: with operands that fit, `MULT` is one register write, of sources read in the old state. -/
theorem exec_mult (ha : regidx a = some d) (hb : resolve s b = some u) (hc : resolve s c = some v) :
    exec (.mult a b c) s = .next (writeReg d (multWords u v) s) :=
  withDstSrcSrc_fit _ ha hb hc

/-- R85: with operands that fit, `MOD` tests its divisor before it writes. -/
theorem exec_mod (ha : regidx a = some d) (hb : resolve s b = some u) (hc : resolve s c = some v) :
    exec (.mod a b c) s =
      if v = 0 then .next (raise .divideByZero (opcodeAddr 4 s) (.word 0) s) else .next (writeReg d (modWords u v) s) := by
  have runs : exec (.mod a b c) s =
      attempt 4 s (if v.toNat = 0 then .error ⟨.divideByZero, .word 0⟩ else .ok (writeReg d (modWords u v) s)) :=
    withDstSrcSrc_fit _ ha hb hc
  have zero_iff : v.toNat = 0 ↔ v = 0 := BitVec.toNat_inj (y := 0)
  rw [runs, apply_ite (attempt 4 s), attempt_ok, attempt_error]
  simp only [zero_iff]

/-- R86: with operands that fit, `AND` is one register write, of all 16 bits. -/
theorem exec_and (ha : regidx a = some d) (hb : resolve s b = some u) (hc : resolve s c = some v) :
    exec (.and a b c) s = .next (writeReg d (u &&& v) s) :=
  withDstSrcSrc_fit _ ha hb hc

/-- R87: with operands that fit, `OR` is one register write, of all 16 bits. -/
theorem exec_or (ha : regidx a = some d) (hb : resolve s b = some u) (hc : resolve s c = some v) :
    exec (.or a b c) s = .next (writeReg d (u ||| v) s) :=
  withDstSrcSrc_fit _ ha hb hc

/-- R88: with operands that fit, `NOT` is one register write. -/
theorem exec_not (ha : regidx a = some d) (hb : resolve s b = some u) :
    exec (.not a b) s = .next (writeReg d (notWord u) s) :=
  withDstSrc_fit _ ha hb

/-- R88: `NOT` of the register it has just written undoes it. -/
theorem exec_not_writeReg_notWord :
    exec (.not (.reg d) (.reg d)) (writeReg d (notWord u) s) = .next (writeReg d u s) := by
  have reads : resolve (writeReg d (notWord u) s) (.reg d) = some (notWord u) := congrArg some (readReg_writeReg_self ..)
  rw [exec_not rfl reads, notWord_notWord, writeReg_writeReg_self]

end Fit

/-- Settles O11: by `exec_add` the answer is one `writeReg`, and `addWords_toNat` says which number it writes. -/
theorem addReducesTo15Bits : Obligations.AddReducesTo15Bits := by
  intro s p a b c d u v advanced ha hb hc
  refine ⟨rfl, addWords u v, addWords_toNat u v, ?answer⟩
  case answer => rw [exec_add ha hb hc, writeReg_of_pc advanced]

/-- Settles O12: by `exec_mult` the answer is one `writeReg`, and `multWords_toNat` says which number it writes. -/
theorem multReducesTo15Bits : Obligations.MultReducesTo15Bits := by
  intro s p a b c d u v advanced ha hb hc
  refine ⟨rfl, multWords u v, multWords_toNat u v, ?answer⟩
  case answer => rw [exec_mult ha hb hc, writeReg_of_pc advanced]

/-- Settles O13: `exec_mod` decides by the divisor alone whether there is a fault, at `p` because `pc` is four words past it;
otherwise `modWords_toNat` makes the word written the remainder of the division by `v`. -/
theorem modLeavesRemainderOrDivideByZero : Obligations.ModLeavesRemainderOrDivideByZero := by
  intro s p a b c d u v advanced ha hb hc
  refine ⟨rfl, fun nonzero => ⟨modWords u v, ?below, ⟨u.toNat / v.toNat, ?divides⟩, ?answer⟩, fun zero => ?faults⟩
  case below =>
    rw [modWords_toNat]
    exact Nat.mod_lt _ (BitVec.toNat_pos_of_ne_zero nonzero)
  case divides => rw [modWords_toNat, Nat.div_add_mod']
  case answer => rw [exec_mod ha hb hc, if_neg nonzero, writeReg_of_pc advanced]
  case faults => rw [exec_mod ha hb hc, if_pos zero, opcodeAddr_of_pc advanced]

/-- Settles O14: by `exec_and` the answer is one `writeReg`, of the bitwise conjunction. -/
theorem andIsBitwise : Obligations.AndIsBitwise := by
  intro s p a b c d u v advanced ha hb hc
  refine ⟨rfl, u &&& v, fun i _ => BitVec.getLsbD_and, ?answer⟩
  case answer => rw [exec_and ha hb hc, writeReg_of_pc advanced]

/-- Settles O15: by `exec_or` the answer is one `writeReg`, of the bitwise disjunction. -/
theorem orIsBitwise : Obligations.OrIsBitwise := by
  intro s p a b c d u v advanced ha hb hc
  refine ⟨rfl, u ||| v, fun i _ => BitVec.getLsbD_or, ?answer⟩
  case answer => rw [exec_or ha hb hc, writeReg_of_pc advanced]

/-- Settles O16: by `exec_not` the answer is one `writeReg` of `notWord u`, which `notWord_getLsbD` gives bit by bit and
`notWord_toNat_of_lt` as a number; the second `NOT` is `exec_not_writeReg_notWord`. -/
theorem notInverts15Bits : Obligations.NotInverts15Bits := by
  intro s p a b d u advanced ha hb
  refine ⟨rfl, notWord u, fun i low => ?inverted, ?kept, notWord_toNat_of_lt, ?answer, ?undone⟩
  case inverted => rw [notWord_getLsbD, decide_eq_true low, Bool.xor_true]
  case kept => rw [notWord_getLsbD, decide_eq_false (Nat.lt_irrefl 15), Bool.xor_false]
  case answer => rw [exec_not ha hb, writeReg_of_pc advanced]
  case undone => rw [← writeReg_of_pc advanced, ← writeReg_of_pc advanced, exec_not_writeReg_notWord]

end Sys2Proof.Machine
end

section
/-! PROOF. `RMEM` with operands that fit (45_memory.md R90). -/

namespace Sys2Proof.Machine

section Fit
variable {a b : Operand} {s : State} {d : RegIdx} {addr : Word}

/-- 20_memory.md R33: a read inside the image. -/
theorem memRead_inside (inside : addr.toNat < s.memLen.val) :
    memRead addr s = .ok (Memory.readWord s.mem addr.toNat) :=
  memRead_cases.mpr ⟨inside, rfl⟩

/-- 20_memory.md R33, 60_exceptions.md R106: a read at or above `MEMLEN`. -/
theorem memRead_outside (outside : s.memLen.val ≤ addr.toNat) :
    memRead addr s = .error ⟨.memAddressFault, .word addr⟩ :=
  if_neg (mt inImage_iff.mp (Nat.not_lt.mpr outside))

/-- R90: with operands that fit, `RMEM` is one memory read, and the write of the word read. -/
theorem exec_rmem (ha : regidx a = some d) (hb : resolve s b = some addr) :
    exec (.rmem a b) s = attempt 3 s (memRead addr s >>= fun v => .ok (writeReg d v s)) :=
  withDstSrc_fit _ ha hb

/-- R90: inside the image what is left of `RMEM` is one register write, of the whole cell. -/
theorem exec_rmem_inside (ha : regidx a = some d) (hb : resolve s b = some addr) (inside : addr.toNat < s.memLen.val) :
    exec (.rmem a b) s = .next (writeReg d (Memory.readWord s.mem addr.toNat) s) := by
  rw [exec_rmem ha hb, memRead_inside inside]
  rfl

/-- R90: outside the image `RMEM` faults before it writes. -/
theorem exec_rmem_outside (ha : regidx a = some d) (hb : resolve s b = some addr) (outside : s.memLen.val ≤ addr.toNat) :
    exec (.rmem a b) s = .next (raise .memAddressFault (opcodeAddr 3 s) (.word addr) s) := by
  rw [exec_rmem ha hb, memRead_outside outside]
  rfl

end Fit

/-- Settles O17: inside the image `exec_rmem_inside` answers one `writeReg`, whose `pc` is already `p + 3`; outside it
`exec_rmem_outside` faults, at `p` because `pc` is three words past it. -/
theorem rmemLoadsWholeWord : Obligations.RmemLoadsWholeWord := by
  intro s p a b d addr advanced ha hb
  refine ⟨rfl, fun inside => ?loads, fun outside => ?faults⟩
  case loads => rw [exec_rmem_inside ha hb inside, writeReg_of_pc advanced]
  case faults => rw [exec_rmem_outside ha hb outside, opcodeAddr_of_pc advanced]

end Sys2Proof.Machine
end

section
/-! PROOF. `CALL` with an operand that fits, and `RET` (46_call_ret.md R93, R94). -/

namespace Sys2Proof.Machine

section Fit
variable {a : Operand} {s : State} {t : Word} {rest : List Word}

/-- 43_jumps.md R78: a target at or above `MEMLEN` fails the test that `CALL` and every transfer make. -/
theorem not_inImage_of_outside (outside : s.memLen.val ≤ t.toNat) : ¬ inImage t s = true :=
  mt inImage_iff.mp (Nat.not_lt.mpr outside)

/-- R93: with its target inside the image, `CALL` pushes the address after it, then transfers. -/
theorem exec_call_inside (ha : resolve s a = some t) (inside : t.toNat < s.memLen.val) :
    exec (.call a) s = attempt 2 s (pushWord s.pc s >>= fun s' => transfer t s') :=
  (withSrc_fit _ ha).trans (congrArg (attempt 2 s) (if_pos (inImage_iff.mpr inside)))

/-- R93, 60_exceptions.md R110: with its target outside the image, `CALL` faults before it looks at the stack. -/
theorem exec_call_outside (ha : resolve s a = some t) (outside : s.memLen.val ≤ t.toNat) :
    exec (.call a) s = attempt 2 s (.error ⟨.jumpTargetFault, .word t⟩) :=
  (withSrc_fit _ ha).trans (congrArg (attempt 2 s) (if_neg (not_inImage_of_outside outside)))

/-- R93: a push with room left, then a transfer inside the image. -/
theorem pushWord_transfer_inside (v : Word) (room : s.cfg.stackMax ≠ some s.stack.length)
    (inside : t.toNat < s.memLen.val) :
    (pushWord v s >>= fun s' => transfer t s') = .ok { s with pc := t, stack := v :: s.stack } := by
  rw [pushWord_room room]
  exact transfer_cases.mpr ⟨inside, rfl⟩

/-- R93: on a full stack the push faults, and there is no transfer. -/
theorem pushWord_transfer_full (v : Word) (full : s.cfg.stackMax = some s.stack.length) :
    (pushWord v s >>= fun s' => transfer t s') = .error ⟨.stackOverflow, .word 0⟩ := by
  rw [pushWord_full full]
  rfl

/-- R94: on an empty stack `RET` is a diagnostic and a halt. -/
theorem exec_ret_empty (empty : s.stack = []) :
    exec .ret s = .next (haltWith .retEmptyStack (diagnose .retEmptyStack (opcodeAddr 1 s) (.word 0) s)) := by
  rw [exec, execRet, empty]
  rfl

/-- R94: with a top entry `RET` is one transfer to it, after which the entry is gone. -/
theorem exec_ret_top (top : s.stack = t :: rest) :
    exec .ret s = attempt 1 s ((transfer t s).map fun s' => { s' with stack := rest }) := by
  rw [exec, execRet, top]

/-- R94: a top entry inside the image becomes `pc`. -/
theorem exec_ret_inside (top : s.stack = t :: rest) (inside : t.toNat < s.memLen.val) :
    exec .ret s = .next { s with pc := t, stack := rest } := by
  rw [exec_ret_top top, transfer_cases.mpr ⟨inside, rfl⟩]
  rfl

/-- R94: a top entry outside the image is a fault of the transfer, before the entry is removed. -/
theorem exec_ret_outside (top : s.stack = t :: rest) (outside : s.memLen.val ≤ t.toNat) :
    exec .ret s = .next (raise .jumpTargetFault (opcodeAddr 1 s) (.word t) s) := by
  rw [exec_ret_top top, transfer, if_neg (not_inImage_of_outside outside)]
  rfl

end Fit

/-- Settles O19: `exec_call_outside` answers the target's test, made before any push; inside the image
`pushWord_transfer_full` and `pushWord_transfer_inside` answer the rest, and the word pushed is `pc`, already `p + 2`. -/
theorem callPushesReturnAddress : Obligations.CallPushesReturnAddress := by
  intro s p a t advanced ha
  refine ⟨rfl, fun outside => ?outside, fun inside full => ?full, fun inside room => ?calls⟩
  case outside => rw [exec_call_outside ha outside, attempt_error, opcodeAddr_of_pc advanced]
  case full => rw [exec_call_inside ha inside, pushWord_transfer_full _ full, attempt_error, opcodeAddr_of_pc advanced]
  case calls => rw [exec_call_inside ha inside, pushWord_transfer_inside _ room inside, attempt_ok, advanced]

/-- Settles O20: the three answers of `RET` are `exec_ret_empty`, `exec_ret_inside` and `exec_ret_outside`; the diagnostic's
and the fault's address is `p` because `pc` is one word past it. -/
theorem retJumpsToTopOrHalts : Obligations.RetJumpsToTopOrHalts := by
  refine ⟨rfl, fun s p advanced => ⟨fun empty => ?halts, fun t rest top => ⟨fun inside => ?jumps, fun outside => ?faults⟩⟩⟩
  case halts => rw [exec_ret_empty empty, opcodeAddr_of_pc advanced, haltWith, diagnose, advanced]
  case jumps => exact exec_ret_inside top inside
  case faults => rw [exec_ret_outside top outside, opcodeAddr_of_pc advanced]

end Sys2Proof.Machine
end

section
/-! PROOF. A valid opcode whose operand words do not all lie inside the image (30_encoding.md R56, 60_exceptions.md R101). -/

namespace Sys2Proof.Machine

/-- R56: a valid opcode with fewer words after it than it has operands is no instruction. -/
theorem decodeWords_missing_operands {o : Opcode} {ws : List Word} (short : ws.length < o.nargs) :
    decodeWords (o.toWord :: ws) = .error (.missingOperands o) := by
  rw [decodeWords, Opcode.ofWord_toWord]
  exact if_pos short

/-- R56: the fetch stops at `MEMLEN`, so an opcode whose last operand word would lie there is left short of words. -/
theorem fetch_missing_operands {s : State} {o : Opcode} (inside : s.pc.toNat < s.memLen.val)
    (opcode : Memory.readWord s.mem s.pc.toNat = o.toWord) (past : s.memLen.val ≤ s.pc.toNat + o.nargs) :
    fetch s = .error (.missingOperands o) := by
  obtain ⟨ws, words⟩ := fetchWords_eq_cons inside
  have short : ws.length < o.nargs := by
    have fetched := fetchWords_length s
    rw [words, List.length_cons] at fetched
    omega
  rw [fetch, words, opcode, decodeWords_missing_operands short]

/-- Settles O34: `fetch_missing_operands` gives the decoder's reason, and the cycle's stop for it is the fault at `pc`. -/
theorem missingOperandsFetchFault : Obligations.MissingOperandsFetchFault := by
  intro s o running free inside opcode past
  rw [step_of_fetch_error running free (fetch_missing_operands inside opcode past), stopCycle]

end Sys2Proof.Machine
end

section
/-! PROOF. Decoding and encoding undo each other, and what the decoder rejects (30_encoding.md R45 to R61). -/

namespace Sys2Proof

/-! ## Operands of an instruction -/

/-- R53, R58: what a role admits is the kind of some word. -/
theorem Role.isKind_of_admits {r : Role} {o : Operand} (h : r.admits o = true) : o.isKind = true := by
  cases o with
  | lit v => rfl
  | reg i => rfl
  | invalid w => cases r <;> exact absurd h Bool.false_ne_true

theorem Instr.encodable_of_wellFormed {i : Instr} (h : i.wellFormed = true) : i.encodable = true :=
  List.all_eq_true.mpr fun ro hro => Role.isKind_of_admits (List.all_eq_true.mp h ro hro)

/-- R46: an instruction is its opcode's, with its own operands in their places. -/
theorem Instr.instr_opcode_of_operands {i : Instr} {f : Nat → Operand}
    (h : ∀ {k r o}, i.operands[k]? = some (r, o) → f k = o) : i.opcode.instr (f 0) (f 1) (f 2) = i := by
  cases i with
  | halt | ret | noop => rfl
  | push a | pop a | jmp a | call a | out a | inp a =>
    have h0 : f 0 = a := h rfl
    rw [h0]
    rfl
  | set a b | jt a b | jf a b | not a b | rmem a b | wmem a b =>
    have h0 : f 0 = a := h rfl
    have h1 : f 1 = b := h rfl
    rw [h0, h1]
    rfl
  | eq a b c | gt a b c | add a b c | mult a b c | mod a b c | and a b c | or a b c =>
    have h0 : f 0 = a := h rfl
    have h1 : f 1 = b := h rfl
    have h2 : f 2 = c := h rfl
    rw [h0, h1, h2]
    rfl

/-- R46, R48: of the operands given to an opcode its instruction takes the first `NARGS`. -/
theorem Opcode.operands_instr (o : Opcode) (f : Nat → Operand) :
    (o.instr (f 0) (f 1) (f 2)).operands.map Prod.snd = (List.range o.nargs).map f := by
  cases o <;> rfl

/-! ## Decoding an opcode word and what follows it -/

theorem Opcode.toWord_inj {o o' : Opcode} : o.toWord = o'.toWord ↔ o = o' := by
  refine ⟨fun h => Option.some.inj ?_, congrArg _⟩
  rw [← Opcode.ofWord_toWord o, h, Opcode.ofWord_toWord]

/-- R47: the words of opcodes are below 22. -/
theorem Opcode.toWord_lt (o : Opcode) : o.toWord.toNat < 22 := by
  cases o <;> decide

/-- R47: a word is that of an opcode, or 22 or more. -/
theorem Opcode.exists_toWord_or_le (w : Word) : (∃ o : Opcode, w = o.toWord) ∨ 22 ≤ w.toNat := by
  cases h : Opcode.ofWord w with
  | none => exact .inr ((Opcode.ofWord_eq_none_iff w).mp h)
  | some o => exact .inl ⟨o, (Opcode.toWord_of_ofWord h).symm⟩

/-- R59: a first word of 22 or more is no opcode. -/
theorem decodeWords_invalid_opcode {op : Word} (h : 22 ≤ op.toNat) (ws : List Word) :
    decodeWords (op :: ws) = .error (.invalidOpcode op) := by
  rw [decodeWords, (Opcode.ofWord_eq_none_iff op).mpr h]

/-- R54, R61: an opcode and at least its operand words are an instruction. -/
theorem decodeWords_complete {o : Opcode} {ws : List Word} (h : o.nargs ≤ ws.length) :
    decodeWords (o.toWord :: ws) = .ok (o.instr (operandAt ws 0) (operandAt ws 1) (operandAt ws 2)) := by
  rw [decodeWords, Opcode.ofWord_toWord]
  exact if_neg (Nat.not_lt.mpr h)

/-- The four ways a list of words can be read. -/
inductive WordsCase : List Word → Prop where
  | empty : WordsCase []
  | invalid {op : Word} (ws : List Word) (h : 22 ≤ op.toNat) : WordsCase (op :: ws)
  | short {o : Opcode} {ws : List Word} (h : ws.length < o.nargs) : WordsCase (o.toWord :: ws)
  | complete {o : Opcode} {ws : List Word} (h : o.nargs ≤ ws.length) : WordsCase (o.toWord :: ws)

theorem wordsCase (ws : List Word) : WordsCase ws := by
  cases ws with
  | nil => exact .empty
  | cons op ws =>
    rcases Opcode.exists_toWord_or_le op with ⟨o, rfl⟩ | h
    · rcases Nat.lt_or_ge ws.length o.nargs with h | h
      · exact .short h
      · exact .complete h
    · exact .invalid ws h

/-- An instruction is read from its opcode's word and at least its operand words. -/
theorem decodeWords_eq_ok {ws : List Word} {i : Instr} (h : decodeWords ws = .ok i) :
    ∃ (o : Opcode) (vs : List Word), ws = o.toWord :: vs ∧ o.nargs ≤ vs.length ∧
      i = o.instr (operandAt vs 0) (operandAt vs 1) (operandAt vs 2) := by
  cases wordsCase ws with
  | empty => cases h
  | invalid vs high => rw [decodeWords_invalid_opcode high] at h; cases h
  | short few => rw [Machine.decodeWords_missing_operands few] at h; cases h
  | complete enough => rw [decodeWords_complete enough] at h; cases h; exact ⟨_, _, rfl, enough, rfl⟩

/-! ## The round trips -/

/-- The operand words of an encodable instruction denote its operands, whatever follows them. -/
theorem operandAt_operand_words {i : Instr} (h : i.encodable = true) (ws : List Word) {k : Nat} {r : Role} {o : Operand}
    (ho : i.operands[k]? = some (r, o)) : operandAt ((i.operands.map fun ro => ro.2.toWord) ++ ws) k = o := by
  have kind : o.isKind = true := List.all_eq_true.mp h _ (List.mem_of_getElem? ho)
  have word : ((i.operands.map fun ro => ro.2.toWord) ++ ws)[k]? = some o.toWord := by
    rw [List.getElem?_append_left (by simpa using (List.getElem?_eq_some_iff.mp ho).1), List.getElem?_map, ho]
    rfl
  rw [operandAt, List.getD_eq_getElem?_getD, word, Option.getD_some, Operand.ofWord_toWord kind]

/-- R45, R46: an encoded instruction is read back, whatever words follow it. -/
theorem decodeWords_encode {i : Instr} (h : i.encodable = true) (ws : List Word) :
    decodeWords (encode i ++ ws) = .ok i := by
  have enough : i.opcode.nargs ≤ ((i.operands.map fun ro => ro.2.toWord) ++ ws).length := by
    rw [List.length_append, List.length_map, Instr.operands_length]
    exact Nat.le_add_right _ _
  rw [encode, List.cons_append, decodeWords_complete enough,
    Instr.instr_opcode_of_operands (operandAt_operand_words h ws)]

/-- Settles O28: words by `decodeWords_encode`; bytes are those words by `wordsOfBytes_bytesOfWords`. -/
theorem decodeOfEncode : Obligations.DecodeOfEncode := by
  refine ⟨fun i => Instr.encodable_of_wellFormed, fun i h => ⟨decodeWords_encode h, fun bs => ?bytes, encode_length i⟩⟩
  case bytes => rw [decode, encodeBytes, wordsOfBytes_bytesOfWords, decodeWords_encode h]

/-- The operand words of the instruction that an opcode makes of the words `ws` are the first of `ws`. -/
theorem operand_words_instr {o : Opcode} {ws : List Word} (h : o.nargs ≤ ws.length) :
    ((o.instr (operandAt ws 0) (operandAt ws 1) (operandAt ws 2)).operands.map fun ro => ro.2.toWord) =
      ws.take o.nargs := by
  calc _ = ((o.instr (operandAt ws 0) (operandAt ws 1) (operandAt ws 2)).operands.map Prod.snd).map Operand.toWord := by
        rw [List.map_map]; rfl
    _ = (List.range o.nargs).map fun k => ws.getD k 0 := by
        rw [Opcode.operands_instr, List.map_map]
        exact List.map_congr_left fun k _ => Operand.toWord_ofWord _
    _ = ws.take o.nargs := by
        apply List.ext_getElem
        · simpa using h
        · intro k hk _
          have inside : k < ws.length := by
            rw [List.length_map, List.length_range] at hk
            omega
          simp [List.getElem?_eq_getElem inside]

/-- R49: what an opcode makes of words is encodable, since every operand is the kind of its word. -/
theorem encodable_instr (o : Opcode) (ws : List Word) :
    (o.instr (operandAt ws 0) (operandAt ws 1) (operandAt ws 2)).encodable = true := by
  refine List.all_eq_true.mpr fun ro hro => ?_
  have listed : ro.2 ∈ (List.range o.nargs).map (operandAt ws) :=
    Opcode.operands_instr o (operandAt ws) ▸ List.mem_map_of_mem hro
  obtain ⟨k, -, operand⟩ := List.mem_map.mp listed
  rw [← operand]
  exact Operand.isKind_ofWord _

/-- R60, R61: the words an instruction is decoded from are its encoding. -/
theorem take_length_of_decodeWords {ws : List Word} {i : Instr} (h : decodeWords ws = .ok i) :
    ws.take i.length = encode i := by
  obtain ⟨o, vs, rfl, enough, rfl⟩ := decodeWords_eq_ok h
  rw [encode, Instr.length, Opcode.opcode_instr, operand_words_instr enough, Nat.add_comm, List.take_succ_cons]

theorem encodable_of_decodeWords {ws : List Word} {i : Instr} (h : decodeWords ws = .ok i) : i.encodable = true := by
  obtain ⟨o, vs, -, -, rfl⟩ := decodeWords_eq_ok h
  exact encodable_instr o vs

/-- Settles O29, by the decoder's inversion `decodeWords_eq_ok`, from which both clauses above follow. -/
theorem encodeOfDecode : Obligations.EncodeOfDecode :=
  fun _ _ h => ⟨encodable_of_decodeWords h, take_length_of_decodeWords h⟩

/-- Settles O30: in each case of `wordsCase` the decoder's answer is known, and the other three conditions fail. -/
theorem decodeRejectsExactly : Obligations.DecodeRejectsExactly := by
  intro ws
  cases wordsCase ws with
  | empty => simp [decodeWords]
  | @invalid op ws high =>
    have noOpcode (o : Opcode) : op ≠ o.toWord := fun h => absurd high (Nat.not_le.mpr (h ▸ o.toWord_lt))
    rw [decodeWords_invalid_opcode high]
    simp only [List.head?_cons, Option.some.injEq, noOpcode]
    simp +contextual [high]
  | @short o ws few =>
    have low : o.toWord.toNat ≤ 21 := Nat.le_of_lt_succ o.toWord_lt
    rw [Machine.decodeWords_missing_operands few]
    simp [Opcode.toWord_inj, Nat.succ_le_iff, few, low]
  | @complete o ws enough =>
    have low : o.toWord.toNat ≤ 21 := Nat.le_of_lt_succ o.toWord_lt
    rw [decodeWords_complete enough]
    simp [Opcode.toWord_inj, Nat.succ_le_iff, enough, low]

end Sys2Proof
end

section
/-! PROOF. The invariant of the machine (`State.Inv`): what each update of the state keeps of it, then instructions and
steps. -/

namespace Sys2Proof.Machine

/-! ## Updates of the state -/

section Updates
variable {s : State}

theorem State.Inv.writeReg (inv : s.Inv) (d : RegIdx) (v : Word) : (writeReg d v s).Inv := { inv with }

theorem State.Inv.emit (inv : s.Inv) (v : Word) : (emit v s).Inv := { inv with }

theorem State.Inv.withStack (inv : s.Inv) {stack : List Word}
    (bounded : ∀ m, s.cfg.stackMax = some m → stack.length ≤ m) : { s with stack := stack }.Inv :=
  { inv with stackBounded := bounded }

/-- 10_state.md R22: a push keeps the bound, because it tests it. -/
theorem State.Inv.push (inv : s.Inv) (v : Word) (room : s.cfg.stackMax ≠ some s.stack.length) :
    { s with stack := v :: s.stack }.Inv :=
  inv.withStack fun m hm => Nat.lt_of_le_of_ne (inv.stackBounded m hm) fun full => room (full ▸ hm)

theorem State.Inv.pop (inv : s.Inv) {v : Word} {rest : List Word} (top : s.stack = v :: rest) :
    { s with stack := rest }.Inv :=
  inv.withStack fun m hm => by
    have := inv.stackBounded m hm
    rw [top, List.length_cons] at this
    omega

/-- A machine that waits for nothing may have any `pc` up to `MEMLEN`. -/
theorem State.Inv.withPc (inv : s.Inv) (free : s.wait = .none) {q : Word} (inside : q.toNat ≤ s.memLen.val) :
    { s with pc := q }.Inv :=
  { inv with
    pcInImage := inside
    confirmPaused := fun _ h => absurd (free.symm.trans h) nofun
    recvPastIn := fun _ h => absurd (free.symm.trans h) nofun }

theorem State.Inv.withConfirms (inv : s.Inv) (n : Nat) : { s with confirms := n }.Inv := { inv with }

theorem State.Inv.withInput (inv : s.Inv) (cs : List Byte) : { s with input := cs }.Inv := { inv with }

/-- The end of a wait. -/
theorem State.Inv.free (inv : s.Inv) : { s with wait := .none }.Inv :=
  { inv with
    waitRunning := nofun
    confirmPaused := nofun
    recvPastIn := nofun }

/-- The bytes listed after a store are those listed before and the two of the cell. -/
theorem Memory.mem_writeWord {m : Memory} {a : Nat} {v : Word} {c : Host.Cell} (h : c ∈ Memory.writeWord m a v) :
    c ∈ m ∨ c.1 = 2 * a ∨ c.1 = 2 * a + 1 := by
  rcases Memory.mem_writeByte h with h | high
  · exact (Memory.mem_writeByte h).imp id .inl
  · exact .inr (.inr high)

/-- 20_memory.md R34: a store inside the image. -/
theorem State.Inv.store (inv : s.Inv) {a : Nat} (v : Word) (inside : a < s.memLen.val) :
    { s with mem := Memory.writeWord s.mem a v }.Inv :=
  { inv with
    memCanonical := Memory.wf_writeWord inv.memCanonical a v
    memInImage := fun c listed => by
      rcases Memory.mem_writeWord listed with old | low | high
      · exact inv.memInImage c old
      · exact (by omega : c.1 < 2 * s.memLen.val)
      · exact (by omega : c.1 < 2 * s.memLen.val) }

/-! ## Faults and halts -/

/-- 10_state.md R24: a halt with its cause, of a machine that waits for nothing. -/
theorem State.Inv.haltWith (inv : s.Inv) (free : s.wait = .none) {c : HaltCause} (cause : c ≠ .none)
    (recorded : c = .fault → s.fault ≠ none) : (haltWith c s).Inv :=
  { inv with
    haltedIffCause := iff_of_true rfl cause
    faultRecorded := recorded
    waitRunning := fun waits => absurd free waits }

/-- A diagnostic that is no fault leaves the first fault as it is. -/
theorem State.Inv.diagnose_retEmptyStack (inv : s.Inv) (p : Word) (info : FaultInfo) :
    (diagnose .retEmptyStack p info s).Inv :=
  { inv with
    faultIsFirst := by
      rw [diagnose_fault, diagnose_diags, List.findSome?_append, ← inv.faultIsFirst]
      cases s.fault <;> rfl }

/-- 60_exceptions.md R100: a report is recorded where it is the first. -/
theorem State.Inv.report (inv : s.Inv) (k : FaultKind) (p : Word) (info : FaultInfo) : (report k p info s).Inv :=
  { inv with
    faultRecorded := fun _ => by simp
    faultIsFirst := by
      rw [report_fault, report_diags, List.findSome?_append, ← inv.faultIsFirst]
      cases s.fault <;> rfl }

/-- 60_exceptions.md R109. -/
theorem State.Inv.raise (inv : s.Inv) (free : s.wait = .none) (k : FaultKind) (p : Word) (info : FaultInfo) :
    (raise k p info s).Inv :=
  (inv.report k p info).haltWith free nofun fun _ => by simp

/-! ## Instructions -/

/-- 70_reset_and_hazards.md R126: `Recv` of a running machine past its `IN`. -/
theorem State.Inv.receive (inv : s.Inv) (running : s.status = .running) {d : RegIdx}
    (past : (Instr.inp (.reg d)).length ≤ s.pc.toNat) : (receive d s).Inv := by
  rcases receive_cases d s with ⟨-, held⟩ | ⟨c, cs, -, taken⟩
  · rw [held]
    exact { inv with
      waitRunning := fun _ => running
      confirmPaused := nofun
      recvPastIn := fun e h => by cases h; exact past }
  · rw [taken]
    exact ((inv.writeReg d _).withInput cs).free

end Updates

/-- Every instruction keeps the invariant, of a running machine that waits for nothing and is past the instruction. -/
theorem exec_keeps_inv {i : Instr} {s t : State} (inv : s.Inv) (running : s.status = .running) (free : s.wait = .none)
    (past : i.length ≤ s.pc.toNat) (h : exec i s = .next t) : t.Inv := by
  cases exec_effect h with
  | faulted h =>
    obtain ⟨k, info, rfl⟩ := h
    exact inv.raise free k _ info
  | nothing => exact inv
  | halted => exact inv.haltWith free nofun nofun
  | retHalted => exact (inv.diagnose_retEmptyStack _ _).haltWith free nofun nofun
  | wrote d v => exact inv.writeReg d v
  | pushed v _ room => exact inv.push v room
  | popped d v rest _ top => exact (inv.writeReg d v).pop top
  | jumped q _ inside => exact inv.withPc free inside.le
  | stored a v _ inside => exact inv.store v inside
  | called q _ inside room => exact (inv.push s.pc room).withPc free inside.le
  | returned q rest _ top inside => exact (inv.pop top).withPc free inside.le
  | emitted v => exact inv.emit v
  | received d hi =>
    subst hi
    exact inv.receive running past

/-! ## Steps -/

/-- 30_encoding.md R54, R56: an instruction that is fetched lies inside the image. -/
theorem fetch_inside {s : State} {i : Instr} (h : fetch s = .ok i) : s.pc.toNat + i.length ≤ s.memLen.val := by
  have words := congrArg List.length (take_length_of_decodeWords h)
  rw [List.length_take, fetchWords_length, encode_length] at words
  have := i.length_bounds
  omega

/-- R57: the advance past an instruction inside the image does not wrap. -/
theorem advance_pc_toNat {s : State} {i : Instr} (inside : s.pc.toNat + i.length ≤ s.memLen.val) :
    (advance i s).pc.toNat = s.pc.toNat + i.length := by
  have := s.memLen.isLt
  rw [advance_pc, BitVec.toNat_add, BitVec.toNat_ofNat]
  omega

theorem State.Inv.advance {s : State} {i : Instr} (inv : s.Inv) (free : s.wait = .none) (h : fetch s = .ok i) :
    (advance i s).Inv :=
  inv.withPc free (advance_pc_toNat (fetch_inside h) ▸ fetch_inside h)

/-- 60_exceptions.md R116: a pause of a running machine past a fetched instruction. -/
theorem State.Inv.pause {s : State} {i : Instr} (inv : s.Inv) (running : s.status = .running)
    (enabled : s.cfg.debugEnabled = true) (past : i.length ≤ s.pc.toNat) (encodable : i.encodable = true) (p : Word) :
    (pause i p s).Inv :=
  { inv with
    debugOnlyEnabled := fun disabled => absurd (enabled.symm.trans disabled) nofun
    waitRunning := fun _ => running
    confirmPaused := fun j h => by cases h; exact ⟨rfl, past, encodable⟩
    recvPastIn := nofun }

/-- R59: the word that is no opcode lies inside the image. -/
theorem fetch_invalidOpcode_inside {s : State} {op : Word} (h : fetch s = .error (.invalidOpcode op)) :
    s.pc.toNat < s.memLen.val := by
  by_contra past
  rw [fetch_past_image (Nat.le_of_not_lt past)] at h
  cases h

/-- R59: under either policy, where the word that is no opcode lies inside the image. -/
theorem State.Inv.invalidOpcode {s : State} (inv : s.Inv) (free : s.wait = .none) (inside : s.pc.toNat < s.memLen.val)
    (op : Word) : (invalidOpcode op s).Inv := by
  have skipped : (s.pc + 1).toNat ≤ s.memLen.val := by
    have := s.memLen.isLt
    bv_omega
  unfold Machine.invalidOpcode
  split
  · exact (inv.report _ _ _).withPc free skipped
  · exact inv.raise free _ _ _

/-- R55, R56, R59: a cycle that finds no instruction. -/
theorem State.Inv.stopCycle {s : State} {r : DecodeReject} (inv : s.Inv) (free : s.wait = .none)
    (h : fetch s = .error r) : (stopCycle r s).Inv := by
  cases r with
  | noOpcode => exact inv.haltWith free nofun nofun
  | missingOperands o => exact inv.raise free _ _ _
  | invalidOpcode op => exact inv.invalidOpcode free (fetch_invalidOpcode_inside h) op

/-- R116: the debugger triggers only where it is enabled. -/
theorem debugEnabled_of_triggers {p : Word} {s : State} (h : debugTriggers p s = true) : s.cfg.debugEnabled = true :=
  (Bool.and_eq_true_iff.mp h).1

/-- Settles O43: in each case of `step_case` the state is one the updates above reach. -/
theorem stepKeepsInvariant : Obligations.StepKeepsInvariant := by
  intro s t inv h
  have past {i : Instr} (fetched : fetch s = .ok i) : i.length ≤ (advance i s).pc.toNat :=
    advance_pc_toNat (fetch_inside fetched) ▸ Nat.le_add_left _ _
  have paused {i : Instr} (running : s.status = .running) (free : s.wait = .none) (fetched : fetch s = .ok i)
      (triggers : debugTriggers s.pc s = true) : (pause i s.pc (advance i s)).Inv :=
    (inv.advance free fetched).pause running (debugEnabled_of_triggers triggers) (past fetched)
      (encodable_of_decodeWords fetched) s.pc
  cases step_case h with
  | halted => exact inv
  | received d running waits => exact inv.receive running (inv.recvPastIn d waits)
  | stopped r _ free fetched => exact inv.stopCycle free fetched
  | stillPaused => exact inv
  | paused i running free fetched triggers => exact paused running free fetched triggers
  | ran i _ running free fetched _ runs => exact exec_keeps_inv (inv.advance free fetched) running free (past fetched) runs
  | ranConfirmed i n _ running free fetched triggers _ runs =>
    exact exec_keeps_inv ((paused running free fetched triggers).withConfirms n).free running rfl (past fetched) runs
  | resumed i n _ running waits _ runs =>
    obtain ⟨-, pastPaused, -⟩ := inv.confirmPaused i waits
    exact exec_keeps_inv (inv.withConfirms n).free running rfl pastPaused runs

end Sys2Proof.Machine
end

section
/-! PROOF. The invariant at reset (70_reset_and_hazards.md R120), and that what the environment does keeps it. -/

namespace Sys2Proof.Machine

/-- Settles O44: memory, stack and diagnostics are empty, and the machine is running and waits for nothing. -/
theorem resetHasInvariant : Obligations.ResetHasInvariant where
  memCanonical := Memory.wf_nil
  memInImage := nofun
  pcInImage := Nat.le_refl 0
  haltedIffCause := iff_of_false nofun (not_not_intro rfl)
  faultRecorded := nofun
  faultIsFirst := rfl
  stackBounded := fun m _ => Nat.zero_le m
  debugOnlyEnabled := fun _ => ⟨rfl, rfl⟩
  waitRunning := fun _ => rfl
  confirmPaused := nofun
  recvPastIn := nofun

/-- 70_reset_and_hazards.md R120: with any parameters and input, and no image. -/
theorem inv_resetWith (cfg : Config) (input : List Byte) : (State.resetWith cfg input).Inv :=
  { resetHasInvariant with
    stackBounded := fun m _ => Nat.zero_le m
    debugOnlyEnabled := fun _ => ⟨rfl, rfl⟩ }

/-- An image in canonical form may be loaded at reset, where `pc` is 0. -/
theorem State.Inv.load {s : State} (inv : s.Inv) (start : s.pc = 0) {n : Fin 65536} {m : Memory}
    (canonical : Memory.wf m) (inImage : ∀ c ∈ m, c.1 < 2 * n.val) : { s with memLen := n, mem := m }.Inv :=
  { inv with
    memCanonical := canonical
    memInImage := inImage
    pcInImage := by rw [start]; exact Nat.zero_le _ }

/-- Settles O45: an absent image is `inv_resetWith`, a loaded one is canonical by `Memory.wf_ofBytes` and inside the image by
`Memory.mem_ofBytes`; the environment touches only the input and the Confirms. -/
theorem bootAndEnvironmentHaveInvariant : Obligations.BootAndEnvironmentHaveInvariant := by
  refine ⟨fun cfg image input s h => ?boot, fun s cs inv => ⟨inv.withInput _, inv.withConfirms _⟩⟩
  cases image with
  | none => cases h; exact inv_resetWith cfg input
  | some bs =>
    obtain ⟨_, rfl⟩ := State.boot_some_eq_next.mp h
    refine (inv_resetWith cfg input).load rfl (Memory.wf_ofBytes _ _) fun c listed => ?inside
    have bound := (Memory.mem_ofBytes listed).2
    rw [List.length_take] at bound
    exact (by omega : c.1 < 2 * (bs.length / 2))

end Sys2Proof.Machine
end

section
/-! PROOF. A step of a machine, by where it stands: halted, waiting, or at the start of a cycle that finds an instruction
(30_encoding.md R54, 60_exceptions.md R116, R117). -/

namespace Sys2Proof.Machine

section Steps
variable {s : State} {i : Instr}

theorem step_of_halted (halted : s.status = .halted) : step s = .next s := by
  rw [step, halted]

theorem step_of_recv {d : RegIdx} (running : s.status = .running) (waits : s.wait = .recv d) :
    step s = .next (receive d s) := by
  simp only [step, running, waits]

theorem step_of_confirm (running : s.status = .running) (waits : s.wait = .confirm i) : step s = answerPause i s := by
  simp only [step, running, waits]

/-- R54: a cycle that finds an instruction and does not pause runs it. -/
theorem step_of_fetch_ok (running : s.status = .running) (free : s.wait = .none) (quiet : debugTriggers s.pc s = false)
    (h : fetch s = .ok i) : step s = exec i (advance i s) := by
  simp [step, running, free, cycle, h, quiet]

/-- R116: where the debugger triggers, a cycle that finds an instruction pauses before it. -/
theorem step_of_fetch_ok_triggered (running : s.status = .running) (free : s.wait = .none)
    (triggers : debugTriggers s.pc s = true) (h : fetch s = .ok i) :
    step s = answerPause i (pause i s.pc (advance i s)) := by
  simp [step, running, free, cycle, h, triggers]

/-- R117: without a Confirm a pause lasts. -/
theorem answerPause_zero (h : s.confirms = 0) : answerPause i s = .next s := by
  rw [answerPause, h]

/-- R117: a Confirm ends the pause, and the instruction runs. -/
theorem answerPause_succ {n : Nat} (h : s.confirms = n + 1) :
    answerPause i s = exec i { s with confirms := n, wait := .none } := by
  rw [answerPause, h]

/-- R116: the debugger's trigger as its two conditions. -/
theorem debugTriggers_iff {p : Word} :
    debugTriggers p s = true ↔ s.cfg.debugEnabled = true ∧ (s.debugActive = true ∨ p = s.cfg.stepFrom) := by
  simp [debugTriggers]

theorem debugTriggers_disabled {p : Word} (h : s.cfg.debugEnabled = false) : debugTriggers p s = false := by
  rw [debugTriggers, h, Bool.false_and]

end Steps

/-- Settles O31: `fetch` is the decoder on the words at `pc`, and `advance` the step of `pc` past them. -/
theorem stepRunsDecodedInstruction : Obligations.StepRunsDecodedInstruction :=
  fun _ _ running free quiet decoded => step_of_fetch_ok running free quiet decoded

/-! ## Every step answers -/

theorem exec_answers (i : Instr) (s : State) : ∃ t, exec i s = .next t := by
  obtain ⟨e, runs, -⟩ := exec_validatesFirst i s
  rw [runs]
  exact attempt_answers i.length s e

theorem answerPause_answers (i : Instr) (s : State) : ∃ t, answerPause i s = .next t := by
  cases h : s.confirms with
  | zero => exact ⟨s, answerPause_zero h⟩
  | succ n => rw [answerPause_succ h]; exact exec_answers i _

theorem step_answers (s : State) : ∃ t, step s = .next t := by
  cases running : s.status with
  | halted => exact ⟨s, step_of_halted running⟩
  | running =>
    cases waits : s.wait with
    | recv d => exact ⟨_, step_of_recv running waits⟩
    | confirm i => rw [step_of_confirm running waits]; exact answerPause_answers i s
    | none =>
      cases found : fetch s with
      | error r => exact ⟨_, step_of_fetch_error running waits found⟩
      | ok i =>
        cases triggers : debugTriggers s.pc s with
        | false => rw [step_of_fetch_ok running waits triggers found]; exact exec_answers i _
        | true => rw [step_of_fetch_ok_triggered running waits triggers found]; exact answerPause_answers i _

/-- Settles O40: an instruction is an `attempt`, which always answers; a step is one, or answers outright. -/
theorem everyStepAnswers : Obligations.EveryStepAnswers := ⟨exec_answers, step_answers⟩

/-! ## Runs -/

/-- A run whose first step answers `t` goes on from `t`. -/
theorem run_succ {s t : State} (n : Nat) (h : step s = .next t) :
    Host.Core.run core (n + 1) s = Host.Core.run core n t := by
  have first : core.step s = .next t := h
  simp only [Host.Core.run, first]

/-- Settles O36, by induction on the number of steps. -/
theorem haltedIsTerminal : Obligations.HaltedIsTerminal := by
  intro s n halted
  induction n with
  | zero => rfl
  | succ n ih => rw [run_succ n (step_of_halted halted), ih]

/-! ## Encodings in memory -/

/-- Where the cells at `pc` hold an encoding that ends inside the image, the fetch finds its instruction. -/
theorem fetch_encoded {s : State} {i : Instr} (encodable : i.encodable = true)
    (inside : s.pc.toNat + i.length ≤ s.memLen.val)
    (cells : ∀ k, k < i.length → (encode i)[k]? = some (Memory.readWord s.mem (s.pc.toNat + k))) :
    fetch s = .ok i := by
  have four := i.length_bounds.2
  have head : (fetchWords s).take i.length = encode i := by
    apply List.ext_getElem?
    intro k
    rcases Nat.lt_or_ge k i.length with hk | hk
    · rw [List.getElem?_take_of_lt hk, cells k hk, fetchWords_getElem?, if_pos (by omega)]
    · rw [List.getElem?_take_eq_none hk, List.getElem?_eq_none (by rwa [encode_length])]
  rw [fetch, ← List.take_append_drop i.length (fetchWords s), head, decodeWords_encode encodable]

/-- R54: where they do and there is no debugger, a step runs it. -/
theorem step_encoded {s : State} {i : Instr} (running : s.status = .running) (free : s.wait = .none)
    (disabled : s.cfg.debugEnabled = false) (encodable : i.encodable = true)
    (inside : s.pc.toNat + i.length ≤ s.memLen.val)
    (cells : ∀ k, k < i.length → (encode i)[k]? = some (Memory.readWord s.mem (s.pc.toNat + k))) :
    step s = exec i (advance i s) :=
  step_of_fetch_ok running free (debugTriggers_disabled disabled) (fetch_encoded encodable inside cells)

/-- Settles O32: the step is `step_encoded`; `advance` sets `pc` alone, without wrap by `advance_pc_toNat`. -/
theorem stepRunsEncodedInstruction : Obligations.StepRunsEncodedInstruction :=
  fun s i running free disabled encodable inside cells =>
    ⟨advance i s, step_encoded running free disabled encodable inside cells, rfl, advance_pc_toNat inside⟩

end Sys2Proof.Machine
end

section
/-! PROOF. The debugger's pause and its Confirm (60_exceptions.md R116, R117). -/

namespace Sys2Proof.Machine

/-- A machine that waits for nothing, with its wait taken away. -/
theorem noWait_self {t : State} (free : t.wait = .none) : { t with wait := .none } = t := by
  rw [← free]

/-- `t` held in a pause before `i`. -/
def State.pausedBefore (i : Instr) (t : State) : State := { t with wait := .confirm i }

section Paused
variable {i : Instr} {t : State}

/-- R117: in a pause with no Confirm a step changes nothing. -/
theorem step_pausedBefore (running : t.status = .running) (none : t.confirms = 0) :
    step (t.pausedBefore i) = .next (t.pausedBefore i) :=
  (step_of_confirm (s := t.pausedBefore i) running rfl).trans (answerPause_zero none)

/-- R117: a pause that finds a Confirm uses it up, and the instruction runs in the state before the wait. -/
theorem answerPause_pausedBefore (free : t.wait = .none) {n : Nat} (h : t.confirms = n + 1) :
    answerPause i (t.pausedBefore i) = exec i { t with confirms := n } :=
  (answerPause_succ (s := t.pausedBefore i) h).trans (congrArg (exec i) (noWait_self (t := { t with confirms := n }) free))

/-- R117: a Confirm given in a pause lets the instruction run in the next step. -/
theorem step_confirm_pausedBefore (running : t.status = .running) (free : t.wait = .none) :
    step (t.pausedBefore i).confirm = exec i t :=
  (step_of_confirm (s := (t.pausedBefore i).confirm) running rfl).trans
    (answerPause_pausedBefore (t := t.confirm) free rfl)

end Paused

/-- Settles O54: the triggered cycle is `step_of_fetch_ok_triggered`, whose pause is `t.pausedBefore i`. Without a Confirm the
machine stays in it; with one the instruction runs, in the same step or in the one after the Confirm. -/
theorem debuggerPausesUntilConfirm : Obligations.DebuggerPausesUntilConfirm := by
  intro s i running free decoded enabled trigger t ht
  have pauses := step_of_fetch_ok_triggered running free (debugTriggers_iff.mpr ⟨enabled, trigger⟩) decoded
  have paused : pause i s.pc (advance i s) = t.pausedBefore i := by rw [ht]; rfl
  have tRunning : t.status = .running := by rw [ht, running]
  have tFree : t.wait = .none := by rw [ht, free]
  have tConfirms : t.confirms = s.confirms := by rw [ht]
  rw [pauses, paused]
  refine ⟨fun none => ⟨?pauses, step_pausedBefore tRunning ?none, step_confirm_pausedBefore tRunning tFree⟩,
    fun n some => answerPause_pausedBefore tFree (tConfirms.trans some)⟩
  case none => exact tConfirms.trans none
  case pauses => exact answerPause_zero (s := t.pausedBefore i) (tConfirms.trans none)

end Sys2Proof.Machine
end

section
/-! PROOF. What an instruction can change (10_state.md, 60_exceptions.md R109): each clause by the case of `exec_effect`. -/

namespace Sys2Proof.Machine

/-! ## The frame of `Recv` -/

section Receive
variable (d : RegIdx) (s : State)

/-- 47_io.md R97: `Recv` touches a register, the input and the wait. -/
theorem receive_frame : receive d s =
    { s with regs := (receive d s).regs, input := (receive d s).input, wait := (receive d s).wait } := by
  rcases receive_cases d s with ⟨-, h⟩ | ⟨c, cs, -, h⟩
  · rw [h]
  · rw [h]; rfl

@[simp] theorem receive_haltCause : (receive d s).haltCause = s.haltCause := (congrArg State.haltCause (receive_frame d s) :)
@[simp] theorem receive_stack : (receive d s).stack = s.stack := (congrArg State.stack (receive_frame d s) :)
@[simp] theorem receive_mem : (receive d s).mem = s.mem := (congrArg State.mem (receive_frame d s) :)
@[simp] theorem receive_pc : (receive d s).pc = s.pc := (congrArg State.pc (receive_frame d s) :)
@[simp] theorem receive_output : (receive d s).output = s.output := (congrArg State.output (receive_frame d s) :)
@[simp] theorem receive_debugActive : (receive d s).debugActive = s.debugActive :=
  (congrArg State.debugActive (receive_frame d s) :)
@[simp] theorem receive_confirms : (receive d s).confirms = s.confirms := (congrArg State.confirms (receive_frame d s) :)
@[simp] theorem receive_pauses : (receive d s).pauses = s.pauses := (congrArg State.pauses (receive_frame d s) :)

end Receive

/-! ## Registers -/

/-- 10_state.md R18: a register write changes no other register. -/
theorem eq_of_get_writeReg_ne {d r : RegIdx} {v : Word} {s : State}
    (h : (writeReg d v s).regs.get r ≠ s.regs.get r) : r = d :=
  by_contra fun other => h (readReg_writeReg_ne other v s)

theorem eq_of_get_receive_ne {d r : RegIdx} {s : State} (h : (receive d s).regs.get r ≠ s.regs.get r) : r = d := by
  rcases receive_cases d s with ⟨-, held⟩ | ⟨c, cs, -, taken⟩
  · rw [held] at h
    exact absurd rfl h
  · rw [taken] at h
    exact eq_of_get_writeReg_ne h

/-! ## The obligations -/

/-- 60_exceptions.md R109: only taking a fault makes `Fault` the halt cause. -/
theorem Effect.faulted_of_haltCause {i : Instr} {s t : State} (h : Effect i s t) (before : s.haltCause ≠ .fault)
    (after : t.haltCause = .fault) : Faulted i.length s t := by
  cases h with
  | faulted h => exact h
  | halted | retHalted => cases after
  | received d => exact absurd ((receive_haltCause d s).symm.trans after) before
  | nothing | wrote | pushed | popped | jumped | stored | called | returned | emitted => exact absurd after before

/-- Settles O38: of the effects of `exec_effect` only a fault sets that halt cause, and it is the old state with the fault. -/
theorem faultsArePrecise : Obligations.FaultsArePrecise :=
  fun _ _ _ before runs after => (exec_effect runs).faulted_of_haltCause before after

/-- Settles O41: each effect of `exec_effect` names the instructions that have it, and `simp` reads off what it changes. -/
theorem onlyTheseInstructionsWrite : Obligations.OnlyTheseInstructionsWrite := by
  intro i s t runs
  cases exec_effect runs with
  | faulted h =>
    obtain ⟨k, info, rfl⟩ := h
    simp
  | nothing => simp
  | halted => simp
  | retHalted hi => simp [hi]
  | wrote d v hd =>
    refine ⟨fun r changed => eq_of_get_writeReg_ne changed ▸ hd, ?_⟩
    simp
  | pushed v hi => simp [hi]
  | popped d v rest hi =>
    subst hi
    refine ⟨fun r changed => eq_of_get_writeReg_ne changed ▸ rfl, ?_⟩
    simp [Instr.opcode]
  | jumped q hi =>
    have transfers : i.opcode ∈ [Opcode.jmp, .jt, .jf, .call, .ret] := List.mem_append_left [Opcode.call, .ret] hi
    simp [transfers]
  | stored a v hi => simp [hi]
  | called q hi => simp [hi]
  | returned q rest hi => simp [hi]
  | emitted v hi => simp [hi]
  | received d hi =>
    subst hi
    refine ⟨fun r changed => eq_of_get_receive_ne changed ▸ rfl, ?_⟩
    simp [Instr.opcode, receive_diags]

end Sys2Proof.Machine
end

section
/-! PROOF. What no step takes back (00_scope.md section 3, 10_state.md sections 5 and 7). -/

namespace Sys2Proof.Machine

/-- `t` may come after `s`: parameters as they were, records kept, traces longer, input shorter. -/
structure State.Follows (s t : State) : Prop where
  cfg : t.cfg = s.cfg
  memLen : t.memLen = s.memLen
  debugActive : s.debugActive = true → t.debugActive = true
  fault : ∀ f, s.fault = some f → t.fault = some f
  halted : s.status = .halted → t.status = .halted
  output : s.output <+: t.output
  diags : s.diags <+: t.diags
  pauses : s.pauses <+: t.pauses
  input : t.input <:+ s.input

section Follows
variable {s t u : State}

theorem State.Follows.refl (s : State) : s.Follows s where
  cfg := rfl
  memLen := rfl
  debugActive := id
  fault _ := id
  halted := id
  output := List.prefix_refl _
  diags := List.prefix_refl _
  pauses := List.prefix_refl _
  input := List.suffix_refl _

theorem State.Follows.trans (h : s.Follows t) (h' : t.Follows u) : s.Follows u where
  cfg := h'.cfg.trans h.cfg
  memLen := h'.memLen.trans h.memLen
  debugActive := h'.debugActive ∘ h.debugActive
  fault f := h'.fault f ∘ h.fault f
  halted := h'.halted ∘ h.halted
  output := h.output.trans h'.output
  diags := h.diags.trans h'.diags
  pauses := h.pauses.trans h'.pauses
  input := h'.input.trans h.input

/-! ## Updates -/

theorem follows_haltWith (c : HaltCause) (s : State) : s.Follows (haltWith c s) :=
  { State.Follows.refl s with halted := fun _ => rfl }

theorem follows_diagnose (k : DiagKind) (p : Word) (info : FaultInfo) (s : State) : s.Follows (diagnose k p info s) :=
  { State.Follows.refl s with diags := List.prefix_append _ _ }

/-- 60_exceptions.md R100: a report keeps the first fault. -/
theorem follows_report (k : FaultKind) (p : Word) (info : FaultInfo) (s : State) : s.Follows (report k p info s) :=
  { follows_diagnose (.fault k) p info s with fault := fun f hf => by rw [report_fault, hf, Option.getD_some] }

theorem follows_raise (k : FaultKind) (p : Word) (info : FaultInfo) (s : State) : s.Follows (raise k p info s) :=
  (follows_report k p info s).trans (follows_haltWith _ _)

theorem follows_emit (v : Word) (s : State) : s.Follows (emit v s) :=
  { State.Follows.refl s with output := List.prefix_append _ _ }

theorem follows_receive (d : RegIdx) (s : State) : s.Follows (receive d s) := by
  rcases receive_cases d s with ⟨-, held⟩ | ⟨c, cs, input, taken⟩
  · rw [held]
    exact { State.Follows.refl s with }
  · rw [taken]
    exact { State.Follows.refl s with input := input ▸ List.suffix_cons c cs }

theorem follows_pause (i : Instr) (p : Word) (s : State) : s.Follows (pause i p s) :=
  { State.Follows.refl s with
    debugActive := fun _ => rfl
    pauses := List.prefix_append _ _ }

theorem follows_stopCycle (r : DecodeReject) (s : State) : s.Follows (stopCycle r s) := by
  cases r with
  | noOpcode => exact follows_haltWith _ s
  | missingOperands => exact follows_raise _ _ _ s
  | invalidOpcode op =>
    rw [stopCycle, invalidOpcode]
    split
    · exact { follows_report _ _ _ s with }
    · exact follows_raise _ _ _ s

/-! ## Instructions and steps -/

theorem exec_follows {i : Instr} (h : exec i s = .next t) : s.Follows t := by
  cases exec_effect h with
  | faulted h =>
    obtain ⟨k, info, rfl⟩ := h
    exact follows_raise k _ info s
  | nothing => exact .refl s
  | halted => exact follows_haltWith _ s
  | retHalted => exact (follows_diagnose _ _ _ s).trans (follows_haltWith _ _)
  | emitted v => exact follows_emit v s
  | received d => exact follows_receive d s
  | wrote | pushed | popped | jumped | stored | called | returned => exact { State.Follows.refl s with }

theorem follows_advance (i : Instr) (s : State) : s.Follows (advance i s) := { State.Follows.refl s with }

/-- Confirms and waits come and go. -/
theorem follows_wait_confirms (s : State) (n : Nat) (w : Wait) : s.Follows { s with confirms := n, wait := w } :=
  { State.Follows.refl s with }

theorem step_follows (h : step s = .next t) : s.Follows t := by
  have paused (i : Instr) : s.Follows (pause i s.pc (advance i s)) := (follows_advance i s).trans (follows_pause i _ _)
  cases step_case h with
  | halted | stillPaused => exact .refl s
  | received d => exact follows_receive d s
  | stopped r => exact follows_stopCycle r s
  | paused i => exact paused i
  | ran i _ _ _ _ _ runs => exact (follows_advance i s).trans (exec_follows runs)
  | ranConfirmed i n _ _ _ _ _ _ runs => exact (paused i).trans ((follows_wait_confirms _ n _).trans (exec_follows runs))
  | resumed i n _ _ _ _ runs => exact (follows_wait_confirms s n _).trans (exec_follows runs)

end Follows

/-- Settles O42: the clauses are those of `State.Follows`. -/
theorem stepsNeverUndo : Obligations.StepsNeverUndo := by
  intro s t h
  obtain ⟨cfg, memLen, debugActive, fault, halted, output, diags, pauses, input⟩ := step_follows h
  exact ⟨cfg, memLen, debugActive, fault, halted, output, diags, pauses, input⟩

end Sys2Proof.Machine
end

section
/-! PROOF. `OUT` (47_io.md R96), and what any instruction puts out. -/

namespace Sys2Proof.Machine

section Fit
variable {a : Operand} {s : State} {v : Word}

/-- R96: with an operand that fits, `OUT` emits it unless the debugger is active. -/
theorem exec_out (ha : resolve s a = some v) : exec (.out a) s = .next (if s.debugActive then s else emit v s) :=
  withSrc_fit _ ha

/-- 30_encoding.md R58: an `OUT` of an invalid operand is a fault. -/
theorem exec_out_invalid (ha : resolve s a = none) :
    exec (.out a) s = .next (raise .invalidOperand (opcodeAddr 2 s) (.operand 1 a.toWord) s) := by
  rw [exec, execOut, withSrc, source, ha]
  rfl

end Fit

/-- Settles O21: `exec_out` decides by `debug_active` alone whether there is an output. -/
theorem outEmitsUnlessDebugging : Obligations.OutEmitsUnlessDebugging := by
  intro s p a v advanced ha
  refine ⟨rfl, fun off => ?emits, fun on => ?suppressed⟩
  case emits => rw [exec_out ha, if_neg (ne_true_of_eq_false off), emit, advanced]
  case suppressed => rw [exec_out ha, if_pos on, ← advanced]

/-- The words an instruction puts out where no debugger suppresses them: the operand of an `OUT` that has a value. -/
def emitted (i : Instr) (s : State) : List Word :=
  if i.opcode = .out then i.operands.filterMap fun ro => resolve s ro.2 else []

theorem exists_out_of_opcode {i : Instr} (h : i.opcode = .out) : ∃ a, i = .out a := by
  cases i with
  | out a => exact ⟨a, rfl⟩
  | _ => cases h

theorem exec_output {i : Instr} {s t : State} (runs : exec i s = .next t) :
    t.output = if s.debugActive then s.output else s.output ++ emitted i s := by
  by_cases hi : i.opcode = .out
  · obtain ⟨a, rfl⟩ := exists_out_of_opcode hi
    cases ha : resolve s a with
    | none =>
      rw [exec_out_invalid ha] at runs
      cases runs
      simp [emitted, Instr.operands, ha]
    | some v =>
      rw [exec_out ha] at runs
      cases runs
      cases on : s.debugActive <;> simp [emitted, Instr.opcode, Instr.operands, ha]
  · obtain ⟨-, -, -, -, output, -⟩ := onlyTheseInstructionsWrite i s t runs
    have same : t.output = s.output := by_contra fun changed => hi (output changed)
    simp [emitted, hi, same]

end Sys2Proof.Machine
end

section
/-! PROOF. The debugger changes nothing but the output (60_exceptions.md R118): what an instruction and a cycle do is the same
with the debugger taken away, apart from what is output. -/

namespace Sys2Proof.Machine

/-! ## Effects that do not see the debugger -/

/-- An effect with the debugger taken away from the state it leaves. -/
def effectWithoutDebugger (e : Except Trap State) : Except Trap State := e.map State.withoutDebugger

/-- `f` has the same effect with the debugger and without it, apart from the output. -/
def Blind (f : State → Except Trap State) : Prop :=
  ∀ s, effectWithoutDebugger (f s) = effectWithoutDebugger (f s.withoutDebugger)

theorem Blind.eq {f : State → Except Trap State} (h : Blind f) {s t : State}
    (same : s.withoutDebugger = t.withoutDebugger) : effectWithoutDebugger (f s) = effectWithoutDebugger (f t) := by
  rw [h s, same, ← h t]

/-- What is read first is the same, and then so is the effect. -/
theorem Blind.read {α : Type} {r : State → Except Trap α} {f : α → State → Except Trap State}
    (same : ∀ s, r s.withoutDebugger = r s) (h : ∀ x, Blind (f x)) : Blind fun s => r s >>= fun x => f x s := by
  intro s
  beta_reduce
  rw [same]
  cases r s with
  | error e => rfl
  | ok x => exact h x s

theorem Blind.ite {c : State → Prop} [∀ s, Decidable (c s)] {f g : State → Except Trap State}
    (same : ∀ s, c s.withoutDebugger ↔ c s) (hf : Blind f) (hg : Blind g) : Blind fun s => if c s then f s else g s := by
  intro s
  beta_reduce
  by_cases h : c s
  · rw [if_pos h, if_pos ((same s).mpr h), hf s]
  · rw [if_neg h, if_neg (mt (same s).mp h), hg s]

/-- One effect after another. -/
theorem Blind.seq {f g : State → Except Trap State} (hf : Blind f) (hg : Blind g) : Blind fun s => f s >>= g := by
  intro s
  have first := hf s
  beta_reduce
  cases hs : f s with
  | error e =>
    cases ht : f s.withoutDebugger with
    | error e' => rw [hs, ht] at first; exact first
    | ok t => rw [hs, ht] at first; cases first
  | ok u =>
    cases ht : f s.withoutDebugger with
    | error e' => rw [hs, ht] at first; cases first
    | ok t => rw [hs, ht] at first; exact hg.eq (Except.ok.inj first)

theorem blind_source {k : Nat} {o : Operand} {f : Word → State → Except Trap State} (h : ∀ v, Blind (f v)) :
    Blind fun s => source k o s >>= fun v => f v s :=
  .read (fun s => by cases o <;> rfl) h

theorem blind_destination {k : Nat} {o : Operand} {f : RegIdx → State → Except Trap State} (h : ∀ d, Blind (f d)) :
    Blind fun s => destination k o >>= fun d => f d s :=
  .read (fun _ => rfl) h

theorem blind_transfer (t : Word) : Blind (transfer t) := .ite (fun _ => .rfl) (fun _ => rfl) (fun _ => rfl)

theorem blind_push (v : State → Word) (same : ∀ s, v s.withoutDebugger = v s) : Blind fun s => pushWord (v s) s :=
  .ite (fun _ => .rfl) (fun _ => rfl) (fun s => by rw [same]; rfl)

theorem blind_memWrite (a v : Word) : Blind (memWrite a v) := .ite (fun _ => .rfl) (fun _ => rfl) (fun _ => rfl)

theorem blind_receive (d : RegIdx) : Blind fun s => .ok (receive d s) := by
  intro s
  have input : s.withoutDebugger.input = s.input := rfl
  beta_reduce
  rw [receive, receive, input]
  cases s.input <;> rfl

theorem blind_withStack {f : State → Except Trap State} (hf : Blind f) (stack : List Word) :
    Blind fun s => (f s).map fun t => { t with stack := stack } :=
  hf.seq (g := fun t => .ok { t with stack := stack }) fun _ => rfl

/-- Every instruction is blind. -/
theorem exec_blind (i : Instr) :
    ∃ f : State → Except Trap State, (∀ s, exec i s = attempt i.length s (f s)) ∧ Blind f := by
  cases i with
  | halt => exact ⟨fun s => .ok (haltWith .haltInstr s), fun _ => rfl, fun _ => rfl⟩
  | noop => exact ⟨.ok, fun _ => rfl, fun _ => rfl⟩
  | set a b | not a b => exact ⟨_, fun _ => rfl, blind_destination fun _ => blind_source fun _ _ => rfl⟩
  | eq a b c | gt a b c | add a b c | mult a b c | and a b c | or a b c =>
    exact ⟨_, fun _ => rfl, blind_destination fun _ => blind_source fun _ => blind_source fun _ _ => rfl⟩
  | mod a b c =>
    exact ⟨_, fun _ => rfl, blind_destination fun _ => blind_source fun _ => blind_source fun _ =>
      .ite (fun _ => .rfl) (fun _ => rfl) (fun _ => rfl)⟩
  | push a => exact ⟨_, fun _ => rfl, blind_source fun v => blind_push _ fun _ => rfl⟩
  | jmp a => exact ⟨_, fun _ => rfl, blind_source blind_transfer⟩
  | jt a b => exact ⟨_, fun _ => rfl, blind_source fun _ => blind_source fun t =>
      .ite (fun _ => .rfl) (blind_transfer t) (fun _ => rfl)⟩
  | jf a b => exact ⟨_, fun _ => rfl, blind_source fun _ => blind_source fun t =>
      .ite (fun _ => .rfl) (fun _ => rfl) (blind_transfer t)⟩
  | rmem a b => exact ⟨_, fun _ => rfl, blind_destination fun _ => blind_source fun _ => .read (fun _ => rfl) fun _ _ => rfl⟩
  | wmem a b => exact ⟨_, fun _ => rfl, blind_source fun addr => blind_source fun v => blind_memWrite addr v⟩
  | call a => exact ⟨_, fun _ => rfl, blind_source fun t =>
      .ite (fun _ => .rfl) (.seq (blind_push _ fun _ => rfl) (blind_transfer t)) (fun _ => rfl)⟩
  | pop a =>
    refine ⟨_, fun _ => rfl, blind_destination fun d s => ?_⟩
    have stack : s.withoutDebugger.stack = s.stack := rfl
    rw [stack]
    cases s.stack <;> rfl
  | ret =>
    refine ⟨_, fun _ => rfl, fun s => ?_⟩
    have stack : s.withoutDebugger.stack = s.stack := rfl
    rw [stack]
    cases s.stack with
    | nil => rfl
    | cons t rest => exact blind_withStack (blind_transfer t) rest s
  | out a =>
    refine ⟨_, fun _ => rfl, blind_source fun v s => ?_⟩
    cases s.debugActive <;> rfl
  | inp a => exact ⟨_, fun _ => rfl, blind_destination blind_receive⟩

theorem blind_stopCycle (r : DecodeReject) : Blind fun s => .ok (stopCycle r s) := by
  intro s
  cases r with
  | noOpcode | missingOperands => rfl
  | invalidOpcode op =>
    have policy : s.withoutDebugger.cfg.invalidOpcode = s.cfg.invalidOpcode := rfl
    beta_reduce
    rw [stopCycle, stopCycle, invalidOpcode, invalidOpcode, policy]
    cases s.cfg.invalidOpcode <;> rfl

/-! ## Instructions and cycles of two machines that are equal but for the debugger -/

section Twins
variable {s t s' t' : State}

/-- The end of an instruction, its fault included. -/
theorem attempt_twins {len : Nat} {e e' : Except Trap State} (same : s.withoutDebugger = t.withoutDebugger)
    (effect : effectWithoutDebugger e = effectWithoutDebugger e') (hs : attempt len s e = .next s')
    (ht : attempt len t e' = .next t') :
    s'.withoutDebugger = t'.withoutDebugger := by
  cases e with
  | ok u =>
    cases e' with
    | ok u' => cases hs; cases ht; exact Except.ok.inj effect
    | error f' => cases effect
  | error f =>
    cases e' with
    | ok u' => cases effect
    | error f' =>
      cases effect
      cases hs
      cases ht
      exact congrArg (fun u => raise f.kind (opcodeAddr len u) f.info u) same

theorem exec_twins {i : Instr} (same : s.withoutDebugger = t.withoutDebugger) (hs : exec i s = .next s')
    (ht : exec i t = .next t') : s'.withoutDebugger = t'.withoutDebugger := by
  obtain ⟨f, runs, blind⟩ := exec_blind i
  exact attempt_twins same (blind.eq same) (runs s ▸ hs) (runs t ▸ ht)

theorem emitted_twins (i : Instr) (same : s.withoutDebugger = t.withoutDebugger) : emitted i s = emitted i t := by
  have blind (u : State) (o : Operand) : resolve u o = resolve u.withoutDebugger o := by cases o <;> rfl
  simp only [emitted, blind s, blind t, same]

/-- R118 for one instruction: the machine without the debugger ends up the same but for the output, where it has what the
other has or has suppressed. -/
theorem exec_matched {i : Instr} (same : s.withoutDebugger = t.withoutDebugger) (off : t.debugActive = false)
    (hs : exec i s = .next s') :
    ∃ t', exec i t = .next t' ∧ s'.withoutDebugger = t'.withoutDebugger ∧
      ∃ o, t'.output = t.output ++ o ∧
        (s'.output = s.output ++ o ∨ (s'.output = s.output ∧ s'.debugActive = true)) := by
  obtain ⟨t', ht⟩ := exec_answers i t
  have tOutput : t'.output = t.output ++ emitted i t := by
    rw [exec_output ht, if_neg (ne_true_of_eq_false off)]
  have sOutput := exec_output hs
  refine ⟨t', ht, exec_twins same hs ht, emitted i t, tOutput, ?_⟩
  cases on : s.debugActive with
  | false => exact .inl (by rw [sOutput, on, emitted_twins i same]; rfl)
  | true =>
    obtain ⟨-, -, -, -, -, -, -, kept, -⟩ := onlyTheseInstructionsWrite i s s' hs
    exact .inr ⟨by rw [sOutput, on]; rfl, kept.trans on⟩

end Twins

theorem stopCycle_output (r : DecodeReject) (s : State) : (stopCycle r s).output = s.output := by
  cases r with
  | noOpcode | missingOperands => rfl
  | invalidOpcode op =>
    rw [stopCycle, invalidOpcode]
    cases s.cfg.invalidOpcode <;> rfl

/-- Settles O55: a step that runs no instruction is blind and puts out nothing; one that runs an instruction, with a pause
before it or without, is `exec_matched`. The other cases of `step_case` want a machine without a Confirm, or one paused. -/
theorem debuggerChangesOnlyOutput : Obligations.DebuggerChangesOnlyOutput := by
  intro s t s' same disabled off confirm unpaused hs
  have status : s.status = t.status := (congrArg State.status same :)
  have wait : s.wait = t.wait := (congrArg State.wait same :)
  have fetched : fetch s = fetch t := (congrArg fetch same :)
  have quiet : debugTriggers t.pc t = false := debugTriggers_disabled disabled
  have silent {t' : State} (ht : t'.output = t.output) (hs : s'.output = s.output) :
      ∃ o, t'.output = t.output ++ o ∧ (s'.output = s.output ++ o ∨ (s'.output = s.output ∧ s'.debugActive = true)) :=
    ⟨[], by simp [ht], .inl (by simp [hs])⟩
  cases step_case hs with
  | halted halted => exact ⟨t, step_of_halted (status ▸ halted), same, silent rfl rfl⟩
  | received d running waits =>
    exact ⟨receive d t, step_of_recv (status ▸ running) (wait ▸ waits), Except.ok.inj ((blind_receive d).eq same),
      silent (receive_output d t) (receive_output d s)⟩
  | stopped r running free found =>
    exact ⟨stopCycle r t, step_of_fetch_error (status ▸ running) (wait ▸ free) (fetched ▸ found),
      Except.ok.inj ((blind_stopCycle r).eq same), silent (stopCycle_output r t) (stopCycle_output r s)⟩
  | ran i _ running free found _ runs =>
    rw [step_of_fetch_ok (status ▸ running) (wait ▸ free) quiet (fetched ▸ found)]
    exact exec_matched (s := advance i s) (t := advance i t) (congrArg (advance i) same) off runs
  | ranConfirmed i n _ running free found _ _ runs =>
    rw [step_of_fetch_ok (status ▸ running) (wait ▸ free) quiet (fetched ▸ found)]
    exact exec_matched (s := { pause i s.pc (advance i s) with confirms := n, wait := .none }) (t := advance i t)
      ((noWait_self (t := (advance i s).withoutDebugger) free).trans (congrArg (advance i) same)) off runs
  | stillPaused i _ waits => exact absurd waits (unpaused i)
  | resumed i _ _ _ waits => exact absurd waits (unpaused i)
  | paused i _ _ _ _ none => exact absurd confirm (none ▸ Nat.lt_irrefl 0)

end Sys2Proof.Machine
end

section
/-! PROOF. `HALT`, `POP`, `WMEM` and `IN` with operands that fit (40_system.md R71, 41_move_stack.md R75, 45_memory.md R91,
47_io.md R97), and what taking a fault changes (60_exceptions.md R109). -/

namespace Sys2Proof.Machine

/-! ## `HALT` -/

theorem exec_halt (s : State) : exec .halt s = .next (haltWith .haltInstr s) := rfl

/-- Settles O1: by `exec_halt` only `status` and `halt_cause` are set; `pc` is already `p + 1`. -/
theorem haltStopsTheRun : Obligations.HaltStopsTheRun := by
  refine ⟨rfl, fun s p advanced => ?answer⟩
  case answer => rw [exec_halt, haltWith, advanced]

/-! ## `POP` -/

section Fit
variable {a b : Operand} {s : State} {d : RegIdx} {addr v : Word} {rest : List Word}

/-- R75: the top entry moves to the register. -/
theorem exec_pop_top (ha : regidx a = some d) (top : s.stack = v :: rest) :
    exec (.pop a) s = .next { writeReg d v s with stack := rest } := by
  rw [exec, execPop, withDst_fit _ ha, top]
  rfl

/-- R75, 60_exceptions.md R104: with no entry there is a fault before anything is written. -/
theorem exec_pop_empty (ha : regidx a = some d) (empty : s.stack = []) :
    exec (.pop a) s = .next (raise .stackEmpty (opcodeAddr 2 s) (.word 0) s) := by
  rw [exec, execPop, withDst_fit _ ha, empty]
  rfl

/-! ## `WMEM` -/

/-- R91: with operands that fit, `WMEM` is one memory write. -/
theorem exec_wmem (ha : resolve s a = some addr) (hb : resolve s b = some v) :
    exec (.wmem a b) s = attempt 3 s (memWrite addr v s) :=
  withSrcSrc_fit _ ha hb

/-- 20_memory.md R34: a write inside the image. -/
theorem memWrite_inside (inside : addr.toNat < s.memLen.val) :
    memWrite addr v s = .ok { s with mem := Memory.writeWord s.mem addr.toNat v } :=
  memWrite_cases.mpr ⟨inside, rfl⟩

/-- 20_memory.md R34, 60_exceptions.md R106: a write at or above `MEMLEN`. -/
theorem memWrite_outside (outside : s.memLen.val ≤ addr.toNat) :
    memWrite addr v s = .error ⟨.memAddressFault, .word addr⟩ :=
  if_neg (not_inImage_of_outside outside)

/-! ## `IN` -/

/-- R97: with an operand that fits, `IN` is one `Recv`. -/
theorem exec_inp (ha : regidx a = some d) : exec (.inp a) s = .next (receive d s) :=
  withDst_fit _ ha

/-- R97: a character is written zero-extended to 16 bits. -/
theorem receive_cons {c : Byte} {cs : List Byte} (h : s.input = c :: cs) : receive d s =
    { s with regs := s.regs.set d (BitVec.ofNat 16 c.toNat), input := cs, wait := .none } := by
  rw [BitVec.ofNat_toNat, receive, h]
  rfl

/-- `s` held in an `IN` that will write register `d`. -/
def State.heldIn (d : RegIdx) (s : State) : State := { s with wait := .recv d }

theorem receive_nil (h : s.input = []) : receive d s = s.heldIn d := by
  rcases receive_cases d s with ⟨-, held⟩ | ⟨c, cs, input, -⟩
  · exact held
  · exact absurd (h.symm.trans input) nofun

/-- 70_reset_and_hazards.md R126: a held machine tries its `Recv` again. -/
theorem step_heldIn (running : s.status = .running) : step (s.heldIn d) = .next (receive d (s.heldIn d)) :=
  step_of_recv (s := s.heldIn d) running rfl

end Fit

/-- Settles O5: the answers are `exec_pop_top` and `exec_pop_empty`; `pc` is two words past `p`. -/
theorem popTakesTopOrStackEmpty : Obligations.PopTakesTopOrStackEmpty := by
  intro s p a d advanced ha
  refine ⟨rfl, fun v rest top => ?pops, fun empty => ?faults⟩
  case pops => rw [exec_pop_top ha top, writeReg_of_pc advanced]
  case faults => rw [exec_pop_empty ha empty, opcodeAddr_of_pc advanced]

/-- Settles O18: `exec_wmem` leaves the write, which `memWrite_inside` and `memWrite_outside` answer; the cell and the bytes
outside it are read back by the laws of `Memory.writeWord`. -/
theorem wmemStoresOneWord : Obligations.WmemStoresOneWord := by
  intro s p a b addr v advanced canonical ha hb
  refine ⟨rfl, fun inside => ⟨{ s with mem := Memory.writeWord s.mem addr.toNat v }, ?stores, ?frame,
    Memory.readWord_writeWord_self canonical _ v, fun k => Memory.readByte_writeWord_ne canonical v⟩, fun outside => ?faults⟩
  case stores => rw [exec_wmem ha hb, memWrite_inside inside, attempt_ok]
  case frame => rw [← advanced]
  case faults => rw [exec_wmem ha hb, memWrite_outside outside, attempt_error, opcodeAddr_of_pc advanced]

/-- Settles O22: `exec_inp` leaves one `Recv`, which `receive_cons` and `receive_nil` answer; `step_heldIn` tries it again,
and the characters supplied stand where the queue was empty. -/
theorem inReceivesOrHolds : Obligations.InReceivesOrHolds := by
  intro s p a d advanced free running ha
  refine ⟨rfl, fun c cs input => ?receives, fun empty => ⟨s.heldIn d, ?holds, rfl, ?stays, fun c cs => ?goesOn⟩⟩
  case receives => rw [exec_inp ha, receive_cons input, advanced, free]
  case holds => rw [exec_inp ha, receive_nil empty]
  case stays => rw [step_heldIn running, receive_nil (s := s.heldIn d) empty]; rfl
  case goesOn =>
    have input : (State.supply (c :: cs) s).input = c :: cs := by rw [supply_input, empty, List.nil_append]
    calc step (State.supply (c :: cs) (s.heldIn d))
      _ = .next (receive d ((State.supply (c :: cs) s).heldIn d)) := step_heldIn (s := State.supply (c :: cs) s) running
      _ = .next { s with regs := s.regs.set d (BitVec.ofNat 16 c.toNat), input := cs } := by
        rw [receive_cons (s := (State.supply (c :: cs) s).heldIn d) input, ← free]
        rfl

/-- Settles O37: the report is `report_eq`, and the halt sets the other two fields. -/
theorem faultEntry : Obligations.FaultEntry := by
  intro k p info s
  refine ⟨?entry, rfl⟩
  case entry => rw [raise, report_eq, haltWith]

end Sys2Proof.Machine
end

section
/-! PROOF. Which well-formed instruction takes which fault (60_exceptions.md R99, rows 5 to 9). -/

namespace Sys2Proof.Machine

/-! ## Reading a fault off the state it leaves -/

section Raises
variable {i : Instr} {len : Nat} {s : State} {k : FaultKind} {p : Word} {info : FaultInfo} {e : Except Trap State}

/-- The diagnostic of a fault tells the fault. -/
theorem raise_inj {k' : FaultKind} {p' : Word} {info' : FaultInfo} :
    raise k p info s = raise k' p' info' s ↔ k = k' ∧ p = p' ∧ info = info' := by
  refine ⟨fun h => ?_, by rintro ⟨rfl, rfl, rfl⟩; rfl⟩
  simpa using congrArg State.diags h

/-- An own effect leaves a fault's state just where it meets that fault, and reports it at the opcode word. -/
theorem attempt_eq_raise_iff (own : OwnEffect s e) :
    attempt len s e = .next (raise k p info s) ↔ p = opcodeAddr len s ∧ e = .error ⟨k, info⟩ := by
  cases own with
  | @ok t same =>
    have other : t ≠ raise k p info s := fun h => by simp [h] at same
    simp [other]
  | @retHalted t _ _ diag =>
    have other : t ≠ raise k p info s := fun h => by simp [h] at diag
    simp [other]
  | @error f =>
    cases f
    simp [raise_inj, eq_comm, and_left_comm]

/-- The fault of an instruction, by the condition under which what is left of it meets that fault. -/
theorem exec_eq_raise_iff (runs : exec i s = attempt i.length s e) (own : OwnEffect s e) {c : Prop}
    (condition : e = .error ⟨k, info⟩ ↔ c) :
    exec i s = .next (raise k p info s) ↔ p = s.pc - BitVec.ofNat 16 i.length ∧ c := by
  rw [runs, ← condition]
  exact attempt_eq_raise_iff own

/-! ## When the effects of R99 meet their fault -/

theorem transfer_eq_error {t : Word} : transfer t s = .error ⟨k, info⟩ ↔
    k = .jumpTargetFault ∧ info = .word t ∧ s.memLen.val ≤ t.toNat := by
  rcases Nat.lt_or_ge t.toNat s.memLen.val with inside | outside
  · simp [transfer_cases.mpr ⟨inside, rfl⟩, inside]
  · have faults : transfer t s = .error ⟨.jumpTargetFault, .word t⟩ := if_neg (not_inImage_of_outside outside)
    simp [faults, outside, eq_comm]

theorem pushWord_eq_error {v : Word} : pushWord v s = .error ⟨k, info⟩ ↔
    k = .stackOverflow ∧ info = .word 0 ∧ s.cfg.stackMax = some s.stack.length := by
  by_cases full : s.cfg.stackMax = some s.stack.length
  · simp [pushWord_full full, full, eq_comm]
  · simp [pushWord_room full, full]

theorem memWrite_eq_error {a v : Word} : memWrite a v s = .error ⟨k, info⟩ ↔
    k = .memAddressFault ∧ info = .word a ∧ s.memLen.val ≤ a.toNat := by
  rcases Nat.lt_or_ge a.toNat s.memLen.val with inside | outside
  · simp [memWrite_inside inside, inside]
  · simp [memWrite_outside outside, outside, eq_comm]

theorem memRead_writeReg_eq_error {a : Word} {d : RegIdx} :
    (memRead a s >>= fun v => .ok (writeReg d v s)) = .error ⟨k, info⟩ ↔
      k = .memAddressFault ∧ info = .word a ∧ s.memLen.val ≤ a.toNat := by
  rcases Nat.lt_or_ge a.toNat s.memLen.val with inside | outside
  · simp [memRead_inside inside, inside, bind, Except.bind]
  · simp [memRead_outside outside, outside, bind, Except.bind, eq_comm]

end Raises

theorem divide_eq_error {v : Word} {t : State} :
    (if v.toNat = 0 then .error ⟨.divideByZero, .word 0⟩ else .ok t : Except Trap State) = .error ⟨k, info⟩ ↔
      k = .divideByZero ∧ info = .word 0 ∧ v = 0 := by
  have zero_iff : v.toNat = 0 ↔ v = 0 := BitVec.toNat_inj (y := 0)
  by_cases zero : v = 0#16
  · simp [zero, @eq_comm _ k, @eq_comm _ info]
  · rw [if_neg (mt zero_iff.mp zero)]
    simp [zero]

theorem pushWord_transfer_eq_error {v t : Word} (inside : t.toNat < s.memLen.val) :
    (pushWord v s >>= fun s' => transfer t s') = .error ⟨k, info⟩ ↔
      k = .stackOverflow ∧ info = .word 0 ∧ s.cfg.stackMax = some s.stack.length := by
  by_cases full : s.cfg.stackMax = some s.stack.length
  · simp [pushWord_transfer_full v full, full, @eq_comm _ k, @eq_comm _ info]
  · simp [pushWord_transfer_inside v full inside, full]

theorem transfer_pop_eq_error {t : Word} {rest : List Word} :
    ((transfer t s).map fun s' => { s' with stack := rest }) = .error ⟨k, info⟩ ↔
      k = .jumpTargetFault ∧ info = .word t ∧ s.memLen.val ≤ t.toNat := by
  rw [← transfer_eq_error]
  cases transfer t s <;> simp [Except.map]

/-! ## Well-formed operands have values -/

section Fit
variable {a b c : Operand}

theorem exists_regidx_of_admits (h : Role.dst.admits a = true) : ∃ d, regidx a = some d := by
  cases a with
  | reg d => exact ⟨d, rfl⟩
  | lit | invalid => cases h

theorem exists_resolve_of_admits (s : State) (h : Role.src.admits a = true) : ∃ v, resolve s a = some v := by
  obtain ⟨v, hv, -⟩ := source_of_admits (k := 0) (s := s) h
  exact ⟨v, hv⟩

theorem exists_fit_src (s : State) (h : ∀ ro ∈ [(Role.src, a)], ro.1.admits ro.2 = true) :
    ∃ u, resolve s a = some u :=
  exists_resolve_of_admits s (h (.src, a) (by simp))

theorem exists_fit_srcSrc (s : State) (h : ∀ ro ∈ [(Role.src, a), (Role.src, b)], ro.1.admits ro.2 = true) :
    ∃ u v, resolve s a = some u ∧ resolve s b = some v := by
  obtain ⟨u, ha⟩ := exists_resolve_of_admits s (h (.src, a) (by simp))
  obtain ⟨v, hb⟩ := exists_resolve_of_admits s (h (.src, b) (by simp))
  exact ⟨u, v, ha, hb⟩

theorem exists_fit_dstSrc (s : State) (h : ∀ ro ∈ [(Role.dst, a), (Role.src, b)], ro.1.admits ro.2 = true) :
    ∃ d u, regidx a = some d ∧ resolve s b = some u := by
  obtain ⟨d, ha⟩ := exists_regidx_of_admits (h (.dst, a) (by simp))
  obtain ⟨u, hb⟩ := exists_resolve_of_admits s (h (.src, b) (by simp))
  exact ⟨d, u, ha, hb⟩

theorem exists_fit_dstSrcSrc (s : State)
    (h : ∀ ro ∈ [(Role.dst, a), (Role.src, b), (Role.src, c)], ro.1.admits ro.2 = true) :
    ∃ d u v, regidx a = some d ∧ resolve s b = some u ∧ resolve s c = some v := by
  obtain ⟨d, ha⟩ := exists_regidx_of_admits (h (.dst, a) (by simp))
  obtain ⟨u, hb⟩ := exists_resolve_of_admits s (h (.src, b) (by simp))
  obtain ⟨v, hc⟩ := exists_resolve_of_admits s (h (.src, c) (by simp))
  exact ⟨d, u, v, ha, hb, hc⟩

end Fit

/-- Settles O39: with operands that fit, each instruction is `attempt` of its own effect, as `exec_eq_raise_iff` wants it; the
effects that can fault do so under the conditions of the lemmas above. -/
theorem faultsOfEachInstruction : Obligations.FaultsOfEachInstruction := by
  intro i s k p info wellFormed
  have fit := List.all_eq_true.mp wellFormed
  cases i with
  | halt => exact exec_eq_raise_iff (i := .halt) (e := .ok (haltWith .haltInstr s)) rfl (.ok rfl) (by simp)
  | noop => exact exec_eq_raise_iff (i := .noop) (e := .ok s) rfl (.ok rfl) (by simp)
  | set a b | not a b =>
    obtain ⟨d, u, ha, hb⟩ := exists_fit_dstSrc s fit
    apply exec_eq_raise_iff
    · exact withDstSrc_fit _ ha hb
    · exact .ok rfl
    · simp
  | eq a b c | gt a b c | add a b c | mult a b c | and a b c | or a b c =>
    obtain ⟨d, u, v, ha, hb, hc⟩ := exists_fit_dstSrcSrc s fit
    apply exec_eq_raise_iff
    · exact withDstSrcSrc_fit _ ha hb hc
    · exact .ok rfl
    · simp
  | out a =>
    obtain ⟨v, ha⟩ := exists_fit_src s fit
    apply exec_eq_raise_iff
    · exact withSrc_fit _ ha
    · exact .ok (by cases s.debugActive <;> rfl)
    · simp
  | inp a =>
    obtain ⟨d, ha⟩ := exists_regidx_of_admits (fit (.dst, a) List.mem_cons_self)
    exact exec_eq_raise_iff (e := .ok (receive d s)) (exec_inp ha) (.ok (receive_diags d s)) (by simp)
  | pop a =>
    obtain ⟨d, ha⟩ := exists_regidx_of_admits (fit (.dst, a) List.mem_cons_self)
    cases stack : s.stack with
    | nil =>
      refine exec_eq_raise_iff (e := .error ⟨.stackEmpty, .word 0⟩) (exec_pop_empty ha stack) (.error nofun nofun) ?_
      simp [@eq_comm _ k, @eq_comm _ info]
    | cons v rest =>
      apply exec_eq_raise_iff (e := .ok _)
      · exact exec_pop_top ha stack
      · exact .ok rfl
      · simp
  | mod a b c =>
    obtain ⟨d, u, v, ha, hb, hc⟩ := exists_fit_dstSrcSrc s fit
    apply exec_eq_raise_iff
    · exact withDstSrcSrc_fit _ ha hb hc
    · exact .ite (.error nofun nofun) (.ok rfl)
    · rw [divide_eq_error]
      simp [hc]
  | rmem a b =>
    obtain ⟨d, addr, ha, hb⟩ := exists_fit_dstSrc s fit
    refine exec_eq_raise_iff (exec_rmem ha hb) (memRead_writeReg_ownEffect addr d) ?_
    rw [memRead_writeReg_eq_error]
    simp [hb]
  | wmem a b =>
    obtain ⟨addr, v, ha, hb⟩ := exists_fit_srcSrc s fit
    refine exec_eq_raise_iff (exec_wmem ha hb) (memWrite_ownEffect addr v) ?_
    rw [memWrite_eq_error]
    simp [ha]
  | jmp a =>
    obtain ⟨t, ha⟩ := exists_fit_src s fit
    refine exec_eq_raise_iff (exec_jmp ha) (transfer_ownEffect t) ?_
    rw [transfer_eq_error]
    simp [ha]
  | jt a b =>
    obtain ⟨u, t, ha, hb⟩ := exists_fit_srcSrc s fit
    refine exec_eq_raise_iff (e := if u = 0 then .ok s else transfer t s) ?_ (.ite (.ok rfl) (transfer_ownEffect t)) ?_
    · rw [exec_jt ha hb, apply_ite (attempt _ s)]
      rfl
    by_cases zero : u = 0#16
    · simp [zero, ha]
    · simp [zero, ha, hb, transfer_eq_error]
  | jf a b =>
    obtain ⟨u, t, ha, hb⟩ := exists_fit_srcSrc s fit
    refine exec_eq_raise_iff (e := if u = 0 then transfer t s else .ok s) ?_ (.ite (transfer_ownEffect t) (.ok rfl)) ?_
    · rw [exec_jf ha hb, apply_ite (attempt _ s)]
      rfl
    by_cases zero : u = 0#16
    · simp [zero, ha, hb, transfer_eq_error]
    · simp [zero, ha]
  | push a =>
    obtain ⟨v, ha⟩ := exists_fit_src s fit
    refine exec_eq_raise_iff (exec_push ha) (pushWord_ownEffect v) ?_
    rw [pushWord_eq_error]
    simp
  | call a =>
    obtain ⟨t, ha⟩ := exists_fit_src s fit
    rcases Nat.lt_or_ge t.toNat s.memLen.val with inside | outside
    · refine exec_eq_raise_iff (exec_call_inside ha inside) (pushWord_transfer_ownEffect _ t) ?_
      rw [pushWord_transfer_eq_error inside]
      simp [ha, inside]
    · refine exec_eq_raise_iff (exec_call_outside ha outside) (.error nofun nofun) ?_
      simp [ha, outside, @eq_comm _ k, @eq_comm _ info]
  | ret =>
    cases stack : s.stack with
    | nil =>
      apply exec_eq_raise_iff (e := .ok _)
      · exact exec_ret_empty stack
      · exact .retHalted rfl
      · simp
    | cons t rest =>
      refine exec_eq_raise_iff (exec_ret_top stack) (transfer_pop_ownEffect t rest) ?_
      rw [transfer_pop_eq_error]
      simp

end Sys2Proof.Machine
end

section
/-! PROOF. Laws of memory, stack and ALU words (20_memory.md R34, R41, R43, 10_state.md R22, 44_alu.md R89). -/

namespace Sys2Proof.Machine

/-! ## A stored word -/

/-- Settles O49: a store is `Memory.writeWord`, which the laws of `Memory.readWord` read back, and the fetch reads the same
memory. -/
theorem storesAreSeenByLoadsAndFetch : Obligations.StoresAreSeenByLoadsAndFetch := by
  intro s t a v canonical _ stored
  obtain ⟨inside, rfl⟩ := memWrite_cases.mp stored
  refine ⟨?loads, fun b other => ?others, fun q k hk covers => ?fetch⟩
  case loads => exact memRead_cases.mpr ⟨inside, (Memory.readWord_writeWord_self canonical _ v).symm⟩
  case others =>
    have cell := Memory.readWord_writeWord_ne canonical v (mt BitVec.eq_of_toNat_eq other)
    rw [memRead, memRead, cell]
    rfl
  case fetch =>
    rw [fetchWords_getElem?, covers, if_pos ⟨hk, inside⟩, Memory.readWord_writeWord_self canonical]

/-! ## Pushes and pops -/

theorem execList_cons {i : Instr} {is : List Instr} {s t : State} (h : exec i s = .next t) :
    execList (i :: is) s = execList is t := by
  rw [execList, h]

theorem execList_append {is js : List Instr} {s t : State} (h : execList is s = .next t) :
    execList (is ++ js) s = execList js t := by
  induction is generalizing s with
  | nil => cases h; rfl
  | cons i is ih =>
    obtain ⟨u, runs⟩ := exec_answers i s
    rw [execList_cons runs] at h
    rw [List.cons_append, execList_cons runs, ih h]

/-- 30_encoding.md R51: operands do not refer to the stack. -/
theorem resolve_withStack (s : State) (stack : List Word) : resolve { s with stack := stack } = resolve s := by
  funext o
  cases o <;> rfl

/-- 10_state.md R22: pushes that fit leave their words on the stack, the last on top. -/
theorem execList_pushes {os : List Operand} {vs : List Word} {s : State} (values : os.map (resolve s) = vs.map some)
    (fits : ∀ m, s.cfg.stackMax = some m → s.stack.length + vs.length ≤ m) :
    execList (os.map Instr.push) s = .next { s with stack := vs.reverse ++ s.stack } := by
  induction os generalizing vs s with
  | nil =>
    cases vs with
    | nil => rfl
    | cons => cases values
  | cons o os ih =>
    cases vs with
    | nil => cases values
    | cons v vs =>
      obtain ⟨value, values⟩ := List.cons.inj values
      have room : s.cfg.stackMax ≠ some s.stack.length := fun full => by
        have := fits _ full
        simp at this
      have pushes : exec (.push o) s = .next { s with stack := v :: s.stack } := by
        rw [exec_push value, pushWord_room room, attempt_ok]
      rw [List.map_cons, execList_cons pushes, ih (vs := vs)]
      · simp
      · rw [resolve_withStack, values]
      · intro m hm
        have := fits m hm
        simp at this ⊢
        omega

/-- 10_state.md R22: `k + 1` pops take the first `k + 1` entries, the last of them into the register. -/
theorem execList_pops {k : Nat} {s : State} (d : RegIdx) (enough : k < s.stack.length) :
    ∃ t, execList (List.replicate (k + 1) (.pop (.reg d))) s = .next t ∧ some (t.regs.get d) = s.stack[k]? ∧
      t.stack = s.stack.drop (k + 1) := by
  induction k generalizing s with
  | zero =>
    obtain ⟨v, rest, top⟩ := List.exists_cons_of_length_pos enough
    refine ⟨{ writeReg d v s with stack := rest }, execList_cons (exec_pop_top rfl top), ?_, ?_⟩
    · rw [top]
      exact congrArg some (readReg_writeReg_self d v s)
    · rw [top]
      rfl
  | succ k ih =>
    obtain ⟨v, rest, top⟩ := List.exists_cons_of_length_pos (Nat.zero_lt_of_lt enough)
    rw [top] at enough
    obtain ⟨t, pops, value, left⟩ := ih (s := { writeReg d v s with stack := rest }) (Nat.lt_of_succ_lt_succ enough)
    refine ⟨t, (execList_cons (exec_pop_top rfl top)).trans pops, ?_, ?_⟩
    · rw [value, top]
      rfl
    · rw [left, top]
      rfl

/-- Settles O50: after `execList_pushes` the stack is the pushed words, the last on top, above the old ones; `execList_pops`
takes from it. -/
theorem stackIsLastInFirstOut : Obligations.StackIsLastInFirstOut := by
  intro s os vs d k values fits hk
  have long : k < vs.reverse.length := by rwa [List.length_reverse]
  obtain ⟨t, pops, value, left⟩ := execList_pops (k := k) (s := { s with stack := vs.reverse ++ s.stack }) d
    (by rw [List.length_append]; omega)
  refine ⟨t, (execList_append (execList_pushes values fits)).trans pops, ?_, ?_⟩
  · rw [value, List.getElem?_append_left long]
  · rw [left, List.drop_append_of_le_length long]

/-! ## `ADD` and `MULT` in any width -/

/-- 44_alu.md R89: in 16 bits or more, reduction modulo the width does not disturb reduction modulo 32768. -/
theorem mod_two_pow_mod_32768 {width : Nat} (h : 16 ≤ width) (n : Nat) : n % 2 ^ width % 32768 = n % 32768 :=
  Nat.mod_mod_of_dvd n (Nat.pow_dvd_pow (m := 15) 2 (by omega))

/-- Settles O52: both sides are the exact sum or product modulo 32768. -/
theorem intermediateWidthDoesNotMatter : Obligations.IntermediateWidthDoesNotMatter := by
  intro u v width wide
  have reduce := mod_two_pow_mod_32768 wide
  refine ⟨?sum, ?product⟩
  case sum =>
    rw [addWords_toNat, BitVec.toNat_add, reduce, BitVec.toNat_ofNat, BitVec.toNat_ofNat,
      Nat.add_mod (u.toNat % 2 ^ width), reduce, reduce, ← Nat.add_mod]
  case product =>
    rw [multWords_toNat, BitVec.toNat_mul, reduce, BitVec.toNat_ofNat, BitVec.toNat_ofNat,
      Nat.mul_mod (u.toNat % 2 ^ width), reduce, reduce, ← Nat.mul_mod]

end Sys2Proof.Machine
end

section
/-! PROOF. A `CALL` and the `RET` it jumps to (46_call_ret.md R95). -/

namespace Sys2Proof.Machine

/-- R95, first step: a `CALL` at `pc`, to a target inside the image. -/
theorem step_call {s : State} {w t : Word} (running : s.status = .running) (free : s.wait = .none)
    (disabled : s.cfg.debugEnabled = false) (inside : s.pc.toNat + 2 ≤ s.memLen.val)
    (opcode : Memory.readWord s.mem s.pc.toNat = 17) (operand : Memory.readWord s.mem (s.pc.toNat + 1) = w)
    (value : resolve s (Operand.ofWord w) = some t) (target : t.toNat < s.memLen.val)
    (room : s.cfg.stackMax ≠ some s.stack.length) :
    step s = .next { s with pc := t, stack := (s.pc + 2) :: s.stack } := by
  have cells (k : Nat) (hk : k < 2) :
      (encode (.call (Operand.ofWord w)))[k]? = some (Memory.readWord s.mem (s.pc.toNat + k)) := by
    have words : encode (.call (Operand.ofWord w)) = [17, w] := congrArg ([17, ·]) (Operand.toWord_ofWord w)
    rw [words]
    match k, hk with
    | 0, _ => exact congrArg some opcode.symm
    | 1, _ => exact congrArg some operand.symm
  have encodable : (Instr.call (Operand.ofWord w)).encodable = true := by
    simp [Instr.encodable, Instr.operands, Operand.isKind_ofWord]
  have value' : resolve (advance (.call (Operand.ofWord w)) s) (Operand.ofWord w) = some t := by
    rw [← value]
    cases Operand.ofWord w <;> rfl
  rw [step_encoded running free disabled encodable inside cells, exec_call_inside value' target]
  exact congrArg (attempt 2 _) (pushWord_transfer_inside (s := advance (.call (Operand.ofWord w)) s) _ room target)

/-- R95, second step: a `RET` at `pc`, to a top entry inside the image. -/
theorem step_ret {s : State} {t : Word} {rest : List Word} (running : s.status = .running) (free : s.wait = .none)
    (disabled : s.cfg.debugEnabled = false) (inside : s.pc.toNat < s.memLen.val)
    (opcode : Memory.readWord s.mem s.pc.toNat = 18) (top : s.stack = t :: rest) (target : t.toNat < s.memLen.val) :
    step s = .next { s with pc := t, stack := rest } := by
  have cells (k : Nat) (hk : k < 1) : (encode .ret)[k]? = some (Memory.readWord s.mem (s.pc.toNat + k)) := by
    obtain rfl := Nat.lt_one_iff.mp hk
    exact congrArg some opcode.symm
  rw [step_encoded (i := .ret) running free disabled rfl inside cells, exec_ret_inside (s := advance .ret s) top target]
  rfl

/-- Settles O51: `step_call` pushes `pc + 2` and goes to the `RET`, and `step_ret` pops it into `pc`. -/
theorem callThenRetResumes : Obligations.CallThenRetResumes := by
  intro s w t running free disabled after callOpcode operand value target retOpcode room
  have resumes : (s.pc + 2).toNat < s.memLen.val := by
    have := s.memLen.isLt
    bv_omega
  have calls := step_call running free disabled after.le callOpcode operand value target room
  have returns := step_ret (s := { s with pc := t, stack := (s.pc + 2) :: s.stack }) running free disabled target retOpcode
    rfl resumes
  rw [run_succ 1 calls, run_succ 0 returns]
  rfl

end Sys2Proof.Machine
end

section
/-! PROOF. Whole lines of input (47_io.md R98), and the reset with an absent image (60_exceptions.md R115). -/

namespace Sys2Proof.Machine

/-- R98: a queue of whole lines is empty or ends with a newline. -/
theorem wholeLines_iff {q : List Byte} : wholeLines q = true ↔ ∀ c, q.getLast? = some c → c = 10 := by
  rw [wholeLines]
  cases q.getLast? <;> simp

/-- R98: what is left after one character of whole lines; nothing is left only after a newline. -/
theorem wholeLines_cons {c : Byte} {cs : List Byte} (h : wholeLines (c :: cs) = true) :
    wholeLines cs = true ∧ (cs = [] → c = 10) := by
  rw [wholeLines_iff, List.getLast?_cons] at h
  refine ⟨wholeLines_iff.mpr fun e he => h e ?_, fun empty => h c ?_⟩
  · rw [he, Option.getD_some]
  · rw [empty, List.getLast?_nil, Option.getD_none]

theorem wholeLines_append {q cs : List Byte} (h : wholeLines q = true) (h' : wholeLines cs = true) :
    wholeLines (q ++ cs) = true := by
  rw [wholeLines_iff] at h h' ⊢
  intro c hc
  rw [List.getLast?_append] at hc
  rcases Option.or_eq_some_iff.mp hc with last | ⟨-, last⟩
  · exact h' c last
  · exact h c last

/-- Settles O53: an `IN` is one `Recv`, which takes the head of the queue, and `wholeLines_cons` speaks of the rest; what is
supplied comes after it, by `wholeLines_append`. -/
theorem inputStaysWholeLines : Obligations.InputStaysWholeLines := by
  intro s d whole
  refine ⟨fun t runs => ?takes, fun cs more => wholeLines_append whole more⟩
  case takes =>
    rw [exec_inp rfl] at runs
    cases runs
    cases input : s.input with
    | nil =>
      rw [receive_nil input]
      exact ⟨whole, fun some => absurd rfl some⟩
    | cons c cs =>
      obtain ⟨rest, newline⟩ := wholeLines_cons (input ▸ whole)
      rw [receive_cons input]
      refine ⟨rest, fun _ empty => ?_⟩
      have value : (writeReg d (BitVec.ofNat 16 c.toNat) s).regs.get d = BitVec.ofNat 16 c.toNat :=
        readReg_writeReg_self d _ s
      rw [newline empty] at value ⊢
      exact value

/-- Settles O48: by O33's `endOfImageHalts`, since `pc` and `MEMLEN` are 0. -/
theorem absentImageEndsAtOnce : Obligations.AbsentImageEndsAtOnce := by
  refine ⟨fun cfg input => ⟨State.resetWith cfg input, rfl, rfl, rfl, rfl, ?halts⟩, rfl⟩
  case halts => exact (endOfImageHalts (State.resetWith cfg input) rfl rfl (Nat.le_refl 0)).1

end Sys2Proof.Machine
end

section
/-! PROOF. The walk of the disassembler (30_encoding.md R65 to R69). -/

namespace Sys2Proof.Machine

/-! ## One turn, by the word it starts at -/

section Turns
variable {q : Nat} {ws : List Word}

/-- R69: a word that is no opcode. -/
theorem disassembleOne_invalid {w : Word} (h : 22 ≤ w.toNat) : disassembleOne q w ws = (.bare q w, ws) := by
  rw [disassembleOne, (Opcode.ofWord_eq_none_iff w).mpr h]

/-- R66, R68: an opcode other than that of `OUT`, with all its operand words or not. -/
theorem disassembleOne_instr {o : Opcode} (other : o ≠ .out) : disassembleOne q o.toWord ws =
    if o.nargs ≤ ws.length then (.instr q o (ws.take o.nargs), ws.drop o.nargs) else (.bare q o.toWord, ws) := by
  rw [disassembleOne, Opcode.ofWord_toWord]
  split
  case h_1 h => cases h
  case h_2 h => exact absurd (Option.some.inj h) other
  case h_3 h => cases h; rfl

/-- R67: an `OUT` and its operand word begin a run. -/
theorem takeOutRun_out (v : Word) :
    takeOutRun (Opcode.toWord .out :: v :: ws) = (v :: (takeOutRun ws).1, (takeOutRun ws).2) :=
  if_pos (Opcode.ofWord_toWord .out)

theorem disassembleOne_out (v : Word) : disassembleOne q (Opcode.toWord .out) (v :: ws) =
    (.outRun q (v :: (takeOutRun ws).1), (takeOutRun ws).2) := by
  simp only [disassembleOne, Opcode.ofWord_toWord, takeOutRun_out]

/-- R68: an `OUT` with its operand word missing. -/
theorem disassembleOne_out_short : disassembleOne q (Opcode.toWord .out) [] = (.bare q (Opcode.toWord .out), []) := by
  simp only [disassembleOne, Opcode.ofWord_toWord, takeOutRun]

end Turns

/-! ## What every turn gives -/

/-- The words of a run of `OUT`. -/
theorem flatMap_out_length (codes : List Word) :
    (codes.flatMap fun v => [Opcode.toWord .out, v]).length = 2 * codes.length := by
  simp [List.length_flatMap, Nat.mul_comm]

/-- R67: a run of `OUT` and the words after it are the words it was taken from. -/
theorem takeOutRun_words (ws : List Word) :
    ((takeOutRun ws).1.flatMap fun v => [Opcode.toWord .out, v]) ++ (takeOutRun ws).2 = ws := by
  induction ws using takeOutRun.induct with
  | case1 w v ws isOut ih =>
    obtain rfl := Opcode.toWord_of_ofWord isOut
    rw [takeOutRun_out, List.flatMap_cons, List.append_assoc, ih]
    rfl
  | case2 w v ws notOut =>
    rw [takeOutRun, if_neg notOut]
    rfl
  | case3 ws short =>
    rw [takeOutRun]
    · rfl
    · exact short

/-- A line `l` at `q` for the first words of `ws`, and the words `rest` after it. -/
structure Splits (q : Nat) (ws : List Word) (l : Line) (rest : List Word) : Prop where
  addr : l.addr = q
  words : l.words ++ rest = ws
  size : l.size = l.words.length
  nonempty : 0 < l.size

theorem splits_bare (q : Nat) (w : Word) (ws : List Word) : Splits q (w :: ws) (.bare q w) ws :=
  ⟨rfl, rfl, rfl, Nat.one_pos⟩

theorem splits_instr (q : Nat) {o : Opcode} {ws : List Word} (enough : o.nargs ≤ ws.length) :
    Splits q (o.toWord :: ws) (.instr q o (ws.take o.nargs)) (ws.drop o.nargs) where
  addr := rfl
  words := congrArg (o.toWord :: ·) (List.take_append_drop _ _)
  size := by simp [Line.size, Line.words, enough, Nat.add_comm]
  nonempty := by rw [Line.size]; omega

theorem splits_outRun (q : Nat) (v : Word) (ws : List Word) :
    Splits q (Opcode.toWord .out :: v :: ws) (.outRun q (v :: (takeOutRun ws).1)) (takeOutRun ws).2 where
  addr := rfl
  words := congrArg (fun ws => Opcode.toWord .out :: v :: ws) (takeOutRun_words ws)
  size := (flatMap_out_length _).symm
  nonempty := Nat.mul_pos Nat.two_pos (Nat.succ_pos _)

/-- R66: every turn of the walk. -/
theorem splits_disassembleOne (q : Nat) (w : Word) (ws : List Word) :
    Splits q (w :: ws) (disassembleOne q w ws).1 (disassembleOne q w ws).2 := by
  rcases Opcode.exists_toWord_or_le w with ⟨o, rfl⟩ | high
  · by_cases isOut : o = .out
    · subst isOut
      cases ws with
      | nil => rw [disassembleOne_out_short]; exact splits_bare q _ []
      | cons v ws => rw [disassembleOne_out]; exact splits_outRun q v ws
    · rw [disassembleOne_instr isOut]
      split
      case isTrue enough => exact splits_instr q enough
      case isFalse => exact splits_bare q _ ws
  · rw [disassembleOne_invalid high]
    exact splits_bare q w ws

theorem Splits.length_lt {q : Nat} {ws rest : List Word} {l : Line} (h : Splits q ws l rest) : rest.length < ws.length := by
  have nonempty := h.size ▸ h.nonempty
  rw [← h.words, List.length_append]
  omega

/-! ## The whole walk -/

/-- R65, R66: with fuel enough the lines stand for all the words, and each line's address is that of its first word. -/
theorem walk_covers {fuel q : Nat} {ws : List Word} (enough : ws.length ≤ fuel) :
    (walk fuel q ws).flatMap Line.words = ws ∧
    ∀ k l, (walk fuel q ws)[k]? = some l → l.addr = q + (((walk fuel q ws).take k).flatMap Line.words).length := by
  induction fuel generalizing q ws with
  | zero =>
    obtain rfl := List.eq_nil_of_length_eq_zero (Nat.le_zero.mp enough)
    exact ⟨rfl, nofun⟩
  | succ fuel ih =>
    cases ws with
    | nil => exact ⟨rfl, nofun⟩
    | cons w ws =>
      have turn := splits_disassembleOne q w ws
      have shorter := turn.length_lt
      obtain ⟨covers, addresses⟩ := ih (q := q + (disassembleOne q w ws).1.size) (ws := (disassembleOne q w ws).2)
        (by omega)
      refine ⟨?_, fun k l hl => ?_⟩
      · rw [walk, List.flatMap_cons, covers, turn.words]
      · rw [walk] at hl ⊢
        cases k with
        | zero => cases hl; exact turn.addr
        | succ k =>
          rw [addresses k l hl, List.take_succ_cons, List.flatMap_cons, List.length_append, turn.size, Nat.add_assoc]

/-- Settles O56: the walk starts at address 0 with the image's length as fuel. -/
theorem listingCoversTheImage : Obligations.ListingCoversTheImage := by
  intro ws
  obtain ⟨covers, addresses⟩ := walk_covers (q := 0) (Nat.le_refl ws.length)
  refine ⟨covers, fun k l hl => ?_⟩
  rw [addresses k l hl, Nat.zero_add]
  rfl

/-! ## Whole instructions -/

/-- The line R66 gives an instruction at `q`. -/
def Line.ofInstr (q : Nat) (i : Instr) : Line := .instr q i.opcode (i.operands.map fun ro => ro.2.toWord)

/-- R66: a whole instruction other than `OUT` is one turn. -/
theorem disassembleOne_encode (q : Nat) {i : Instr} (other : i.opcode ≠ .out) (ws : List Word) :
    disassembleOne q i.opcode.toWord ((i.operands.map fun ro => ro.2.toWord) ++ ws) = (Line.ofInstr q i, ws) := by
  have count : (i.operands.map fun ro => ro.2.toWord).length = i.opcode.nargs := by
    rw [List.length_map, Instr.operands_length]
  rw [disassembleOne_instr other, if_pos (by rw [List.length_append]; omega), List.take_left' count, List.drop_left' count]
  rfl

/-- R66: the lines of whole instructions, up to their addresses: `f` is what is looked at of a line. -/
theorem map_walk_encode {α : Type} {f : Line → α} {g : Instr → α} (same : ∀ q i, f (Line.ofInstr q i) = g i)
    {fuel q : Nat} {is : List Instr} (other : ∀ i ∈ is, i.opcode ≠ .out) (enough : (is.flatMap encode).length ≤ fuel) :
    (walk fuel q (is.flatMap encode)).map f = is.map g := by
  induction is generalizing fuel q with
  | nil => cases fuel <;> rfl
  | cons i is ih =>
    obtain ⟨first, others⟩ := List.forall_mem_cons.mp other
    have positive := i.length_bounds.1
    rw [List.flatMap_cons, List.length_append, encode_length] at enough
    cases fuel with
    | zero => omega
    | succ fuel =>
      rw [List.flatMap_cons, encode, List.cons_append, walk, disassembleOne_encode q first, List.map_cons, same,
        ih others (by omega), List.map_cons]

/-- Settles O57: both lists are `map_walk_encode`, for what they look at of a line. -/
theorem listingReadsBackInstructions : Obligations.ListingReadsBackInstructions :=
  fun _ other => ⟨map_walk_encode (fun _ _ => rfl) other (Nat.le_refl _),
    map_walk_encode (fun _ _ => rfl) other (Nat.le_refl _)⟩

end Sys2Proof.Machine
end

section
/-! PROOF. Names, operands and codes as text (30_encoding.md R62 to R67, R70). -/

namespace Sys2Proof.Machine

/-- Settles O27: a table of 22 rows, and seven byte sequences run through the decoder. -/
theorem opcodeNamesAndSampleWords : Obligations.OpcodeNamesAndSampleWords :=
  ⟨rfl, by decide, by decide, by decide, by decide, by decide, by decide, by decide⟩

section Render
variable {v : Word}

/-- R66, R67: a register reference is its name, as an operand and as a code. -/
theorem renderOperand_register {i : RegIdx} (h : v.toNat = 32768 + i.val) : renderOperand v = "R" ++ toString i.val := by
  rw [renderOperand, Operand.ofWord_reg i h]

theorem renderCode_register {i : RegIdx} (h : v.toNat = 32768 + i.val) : renderCode v = "R" ++ toString i.val := by
  rw [renderCode, Operand.ofWord_reg i h]

/-- R66: every other operand word is its decimal value. -/
theorem renderOperand_number (h : v.toNat < 32768 ∨ 32776 ≤ v.toNat) : renderOperand v = toString v.toNat := by
  rcases h with low | high
  · rw [renderOperand, Operand.ofWord_lit low]
  · rw [renderOperand, Operand.ofWord_invalid high]

/-- R67: every other code is a printable character, the newline's escape, or its decimal value. -/
theorem renderCode_number (h : v.toNat < 32768 ∨ 32776 ≤ v.toNat) : renderCode v =
    if 32 ≤ v.toNat ∧ v.toNat ≤ 126 then String.singleton (Char.ofNat v.toNat)
    else if v.toNat = 10 then "\\n"
    else toString v.toNat := by
  rcases h with low | high
  · rw [renderCode, Operand.ofWord_lit low]
  · rw [renderCode, Operand.ofWord_invalid high]

end Render

/-- Settles O58: `renderCode_number` in the three ranges of a code. -/
theorem operandAndCodeText : Obligations.OperandAndCodeText := by
  intro v
  refine ⟨fun i reg => ⟨renderOperand_register reg, renderCode_register reg⟩, fun number =>
    ⟨renderOperand_number number, fun low high => ?printable, fun newline => ?newline, fun other range => ?decimal⟩⟩
  case printable => rw [renderCode_number number, if_pos ⟨low, high⟩]
  case newline => rw [renderCode_number number, if_neg (by omega), if_pos newline]
  case decimal => rw [renderCode_number number, if_neg (by omega), if_neg other]

/-- Settles O59, by evaluation of the listing. -/
theorem listingOfTheExample : Obligations.ListingOfTheExample := by
  unfold Obligations.ListingOfTheExample
  decide

end Sys2Proof.Machine
end
